-- ==== Sys2Proof/Word.lean ====
section
/-! DEFINITION. The word types of TE128 (00_scope.md R9: every value is an unsigned integer of a stated width). -/

namespace Sys2Proof

/-- A byte, `u8`. -/
abbrev U8 := BitVec 8
/-- `u16`: a buffer offset, a length or a constant id of a command word. -/
abbrev U16 := BitVec 16
/-- `u32`: a host word, a command word, a key word. -/
abbrev U32 := BitVec 32
/-- `u64`: one of the two words High and Low. -/
abbrev U64 := BitVec 64
/-- `u128`: a Uint128 value. -/
abbrev U128 := BitVec 128

end Sys2Proof
end

