-- ==== Sys2Proof/Syntax.lean ====
section
/-! DEFINITION. The twenty commands of TE128, one constructor per row of 30_encoding.md R96. -/

namespace Sys2Proof

/-- The four general registers `Q0` to `Q3` (10_state.md R22; 30_encoding.md R94). -/
inductive QReg where
  | q0
  | q1
  | q2
  | q3
  deriving DecidableEq, Repr

/-- A command (30_encoding.md R92, R96). `off` and `len` are the immediate as a byte offset or a byte count, any
`u16`; `id` is the immediate of `LDC`, of which only 0 to 3 are well-formed (WellFormed.lean; R93). -/
inductive Instr where
  | nop
  | mov (qd qa : QReg)
  | ldc (qd : QReg) (id : U16)
  | add (qd qa qb : QReg)
  | sub (qd qa qb : QReg)
  | shl1 (qd qa : QReg)
  | shr1 (qd qa : QReg)
  | cmp (qa qb : QReg)
  | test (qa : QReg)
  | mulmod (qd qa qb : QReg)
  | powmod (qd qa qb : QReg)
  | ldq (qd : QReg) (off : U16)
  | stq (qa : QReg) (off : U16)
  | setkey (qa : QReg)
  | encblk (off : U16)
  | decblk (off : U16)
  | enc (len : U16)
  | dec (len : U16)
  | elen (len : U16)
  | dlen (len : U16)
  deriving DecidableEq, Repr

end Sys2Proof
end

