-- ==== Sys2Proof/WellFormed.lean ====
section
/-! DEFINITION. Which commands have an encoding. Register fields and 16-bit immediates admit every value
(30_encoding.md R93, R94), so the constant id of `LDC` is the one check (R93, R97). -/

namespace Sys2Proof

/-- R93: of the constant ids only 0, 1, 2, 3 are legal. -/
def constIdLegal (id : U16) : Bool := decide (id.toNat ≤ 3)

/-- A command that some word encodes. -/
def wellFormed : Instr → Bool
  | .nop => true
  | .mov _ _ => true
  | .ldc _ id => constIdLegal id
  | .add _ _ _ => true
  | .sub _ _ _ => true
  | .shl1 _ _ => true
  | .shr1 _ _ => true
  | .cmp _ _ => true
  | .test _ => true
  | .mulmod _ _ _ => true
  | .powmod _ _ _ => true
  | .ldq _ _ => true
  | .stq _ _ => true
  | .setkey _ => true
  | .encblk _ => true
  | .decblk _ => true
  | .enc _ => true
  | .dec _ => true
  | .elen _ => true
  | .dlen _ => true

end Sys2Proof
end

