-- ==== Sys2Proof/Decode.lean ====
section
/-! DEFINITION. Decoding and encoding of command words (30_encoding.md R91, R96, R97, R102). -/

namespace Sys2Proof

/-- The opcode of a command, by mnemonic (R96). -/
inductive Op where
  | nop
  | mov
  | ldc
  | add
  | sub
  | shl1
  | shr1
  | cmp
  | test
  | mulmod
  | powmod
  | ldq
  | stq
  | setkey
  | encblk
  | decblk
  | enc
  | dec
  | elen
  | dlen
  deriving DecidableEq, Repr

/-- The fields of a command word (R91). -/
structure Fields where
  op : U8
  qd : BitVec 2
  qa : BitVec 2
  qb : BitVec 2
  z : BitVec 2
  imm : U16
  deriving DecidableEq, Repr

/-- R91: `op` 31:24, `qd` 23:22, `qa` 21:20, `qb` 19:18, `z` 17:16, `imm` 15:0. -/
def fieldsOf (c : U32) : Fields :=
  { op := c.extractLsb' 24 8
    qd := c.extractLsb' 22 2
    qa := c.extractLsb' 20 2
    qb := c.extractLsb' 18 2
    z := c.extractLsb' 16 2
    imm := c.extractLsb' 0 16 }

/-- The register a two-bit field names (R94). -/
def regOf (b : BitVec 2) : QReg :=
  if b = 0#2 then .q0 else if b = 1#2 then .q1 else if b = 2#2 then .q2 else .q3

/-- The number of a register in a register field (R94). -/
def regBits : QReg → BitVec 2
  | .q0 => 0#2
  | .q1 => 1#2
  | .q2 => 2#2
  | .q3 => 3#2

/-- One row of R96: a word `c` is this command if and only if `c AND mask = pattern`. -/
structure Row where
  op : Op
  pattern : U32
  mask : U32
  deriving DecidableEq, Repr

/-- The complete list of commands, R96. -/
def opcodeTable : List Row :=
  [ ⟨.nop, 0x00000000#32, 0xFFFFFFFF#32⟩,
    ⟨.mov, 0x10000000#32, 0xFF0FFFFF#32⟩,
    ⟨.ldc, 0x11000000#32, 0xFF3FFFFC#32⟩,
    ⟨.add, 0x12000000#32, 0xFF03FFFF#32⟩,
    ⟨.sub, 0x13000000#32, 0xFF03FFFF#32⟩,
    ⟨.shl1, 0x14000000#32, 0xFF0FFFFF#32⟩,
    ⟨.shr1, 0x15000000#32, 0xFF0FFFFF#32⟩,
    ⟨.cmp, 0x16000000#32, 0xFFC3FFFF#32⟩,
    ⟨.test, 0x17000000#32, 0xFFCFFFFF#32⟩,
    ⟨.mulmod, 0x20000000#32, 0xFF03FFFF#32⟩,
    ⟨.powmod, 0x21000000#32, 0xFF03FFFF#32⟩,
    ⟨.ldq, 0x30000000#32, 0xFF3F0000#32⟩,
    ⟨.stq, 0x31000000#32, 0xFFCF0000#32⟩,
    ⟨.setkey, 0x40000000#32, 0xFFCFFFFF#32⟩,
    ⟨.encblk, 0x41000000#32, 0xFFFF0000#32⟩,
    ⟨.decblk, 0x42000000#32, 0xFFFF0000#32⟩,
    ⟨.enc, 0x43000000#32, 0xFFFF0000#32⟩,
    ⟨.dec, 0x44000000#32, 0xFFFF0000#32⟩,
    ⟨.elen, 0x45000000#32, 0xFFFF0000#32⟩,
    ⟨.dlen, 0x46000000#32, 0xFFFF0000#32⟩ ]

/-- R96: `c AND mask = match`. -/
def rowMatches (c : U32) (r : Row) : Bool := c &&& r.mask == r.pattern

/-- The command of a matching row, its operands read from the fields it uses (R92, R102). -/
def build (op : Op) (f : Fields) : Instr :=
  match op with
  | .nop => .nop
  | .mov => .mov (regOf f.qd) (regOf f.qa)
  | .ldc => .ldc (regOf f.qd) f.imm
  | .add => .add (regOf f.qd) (regOf f.qa) (regOf f.qb)
  | .sub => .sub (regOf f.qd) (regOf f.qa) (regOf f.qb)
  | .shl1 => .shl1 (regOf f.qd) (regOf f.qa)
  | .shr1 => .shr1 (regOf f.qd) (regOf f.qa)
  | .cmp => .cmp (regOf f.qa) (regOf f.qb)
  | .test => .test (regOf f.qa)
  | .mulmod => .mulmod (regOf f.qd) (regOf f.qa) (regOf f.qb)
  | .powmod => .powmod (regOf f.qd) (regOf f.qa) (regOf f.qb)
  | .ldq => .ldq (regOf f.qd) f.imm
  | .stq => .stq (regOf f.qa) f.imm
  | .setkey => .setkey (regOf f.qa)
  | .encblk => .encblk f.imm
  | .decblk => .decblk f.imm
  | .enc => .enc f.imm
  | .dec => .dec f.imm
  | .elen => .elen f.imm
  | .dlen => .dlen f.imm

/-- Why a word is illegal (R97's list, in the order tried here; the machine itself records only `E_ILLEGAL`, R243;
log 10). -/
inductive Illegal where
  /-- An `op` value not in the table. -/
  | unknownOp
  /-- A listed `op` with a non-zero `z`. -/
  | reservedBits
  /-- A listed `op` with a non-zero field that the command does not use. -/
  | unusedField
  /-- `LDC` with `imm` above 3. -/
  | constId
  deriving DecidableEq, Repr

/-- The name of the cause for a word that matches no row (R97). -/
def illegalCause (c : U32) : Illegal :=
  let f := fieldsOf c
  if !(opcodeTable.any fun r => r.pattern.extractLsb' 24 8 == f.op) then .unknownOp
  else if f.z ≠ 0#2 then .reservedBits
  else if f.op = 0x11#8 ∧ f.qa = 0#2 ∧ f.qb = 0#2 then .constId
  else .unusedField

/-- What the decoder answers: a command, or a rejection by name. -/
inductive Decoded where
  | command (i : Instr)
  | illegal (why : Illegal)
  deriving DecidableEq, Repr

/-- R102: the first (and only) row with `c AND mask = match`; no row means `Illegal`. -/
def decode (c : U32) : Decoded :=
  match opcodeTable.find? (rowMatches c) with
  | some r => .command (build r.op (fieldsOf c))
  | none => .illegal (illegalCause c)

/-- The command of a decoded word, if it is one. -/
def Decoded.command? : Decoded → Option Instr
  | .command i => some i
  | .illegal _ => none

/-- R102: `c = op·2^24 + qd·2^22 + qa·2^20 + qb·2^18 + imm`, with `z` = 0. -/
def assemble (op : U8) (qd qa qb : BitVec 2) (imm : U16) : U32 :=
  op ++ qd ++ qa ++ qb ++ 0#2 ++ imm

/-- The word of a command, unused fields 0 (R96, R102). -/
def encode : Instr → U32
  | .nop => assemble 0x00#8 0#2 0#2 0#2 0#16
  | .mov qd qa => assemble 0x10#8 (regBits qd) (regBits qa) 0#2 0#16
  | .ldc qd id => assemble 0x11#8 (regBits qd) 0#2 0#2 id
  | .add qd qa qb => assemble 0x12#8 (regBits qd) (regBits qa) (regBits qb) 0#16
  | .sub qd qa qb => assemble 0x13#8 (regBits qd) (regBits qa) (regBits qb) 0#16
  | .shl1 qd qa => assemble 0x14#8 (regBits qd) (regBits qa) 0#2 0#16
  | .shr1 qd qa => assemble 0x15#8 (regBits qd) (regBits qa) 0#2 0#16
  | .cmp qa qb => assemble 0x16#8 0#2 (regBits qa) (regBits qb) 0#16
  | .test qa => assemble 0x17#8 0#2 (regBits qa) 0#2 0#16
  | .mulmod qd qa qb => assemble 0x20#8 (regBits qd) (regBits qa) (regBits qb) 0#16
  | .powmod qd qa qb => assemble 0x21#8 (regBits qd) (regBits qa) (regBits qb) 0#16
  | .ldq qd off => assemble 0x30#8 (regBits qd) 0#2 0#2 off
  | .stq qa off => assemble 0x31#8 0#2 (regBits qa) 0#2 off
  | .setkey qa => assemble 0x40#8 0#2 (regBits qa) 0#2 0#16
  | .encblk off => assemble 0x41#8 0#2 0#2 0#2 off
  | .decblk off => assemble 0x42#8 0#2 0#2 0#2 off
  | .enc len => assemble 0x43#8 0#2 0#2 0#2 len
  | .dec len => assemble 0x44#8 0#2 0#2 0#2 len
  | .elen len => assemble 0x45#8 0#2 0#2 0#2 len
  | .dlen len => assemble 0x46#8 0#2 0#2 0#2 len

/-- The command word whose bits, numbered as the opcode table numbers them, are the low `nbits` bits of `w` (a word is
32 bits, R90; bits above `nbits` are 0). -/
def tableWord (nbits w : Nat) : U32 := BitVec.ofNat 32 (w % 2 ^ nbits)

/-- The command the decoder reads from a table word, none where it refuses. -/
def decodeTableWord (nbits w : Nat) : Option Instr := (decode (tableWord nbits w)).command?

end Sys2Proof
end

