-- ==== Sys2Proof/Config.lean ====
section
/-! DEFINITION. What is fixed for one TE128: the constants of 00_scope.md R7, the parameter record of R8, the
parameter of a host function (41_uint128_serial.md R162) and the one free value (70_reset_and_hazards.md R271). -/

namespace Sys2Proof.Config

/-- `W`, the width in bits of every Uint128 value, the type `U128` (R7). -/
def width : Nat := 128
/-- `WORD`, the width in bits of the two words High and Low, the type `U64` (R7). -/
def wordBits : Nat := 64
/-- `P` = 2^128 − 159, the field prime (R7). -/
def prime : U128 := 0xFFFFFFFFFFFFFFFFFFFFFFFFFFFFFF61#128
/-- `INVERT_P` = 2^128 − P = 159 (R7). -/
def invertP : U128 := 159#128
/-- `G` = 5, the Diffie-Hellman generator (R7). -/
def generator : U128 := 5#128
/-- `DELTA`, the cipher's round constant (R7). -/
def delta : U32 := 0x9E3779B9#32
/-- `ROUNDS` per block, both directions (R7). -/
def rounds : Nat := 32
/-- `BLOCK_BYTES`, the bytes of a cipher block (R7). -/
def blockBytes : Nat := 8
/-- `KEY_WORDS`, the number of 32-bit key words, `K[0]` to `K[3]` (R7). -/
def keyWords : Nat := 4

/-- The parameters an implementation chooses (R8): `bufBytes` is `BUF_BYTES`. -/
structure Params where
  bufBytes : Nat
  deriving DecidableEq, Repr

/-- R8: `BUF_BYTES` is a multiple of 8 from 16 to 61440. -/
def Params.legal (c : Params) : Bool :=
  c.bufBytes % 8 == 0 && decide (16 ≤ c.bufBytes) && decide (c.bufBytes ≤ 61440)

/-- R8: the default, `BUF_BYTES` = 4096. -/
def Params.default : Params := { bufBytes := 4096 }

/-- FREE VALUE (70_reset_and_hazards.md R271, 93 U14; log 3): the byte that `BUF[a]` holds after the reset number
`epoch` until something writes it. It has no body: nothing can be proved of its value. -/
opaque resetByte (epoch a : Nat) : U8

/-- The parameter `B64_OTHER_LENGTH` of the host function `FromBase64` (R162, U11): what a valid text that decodes to
other than 16 bytes yields. -/
inductive B64OtherLength where
  | zero
  | fromBytes
  deriving DecidableEq, Repr

end Sys2Proof.Config
end

