-- ==== Sys2Proof/Machine/State.lean ====
section
/-! DEFINITION. The state of TE128 (10_state.md R21) as plain data, the reasons a step can stop, and the state after
reset (R36). -/

namespace Sys2Proof.Machine

/-- `Q[0..3]`, 4 × u128 (10_state.md R22). -/
structure QFile where
  q0 : U128
  q1 : U128
  q2 : U128
  q3 : U128
  deriving DecidableEq, Repr

/-- `K[0..3]`, 4 × u32, the key schedule (10_state.md R25). -/
structure KeyFile where
  k0 : U32
  k1 : U32
  k2 : U32
  k3 : U32
  deriving DecidableEq, Repr

/-- The five bits of `FLAGS` (10_state.md R28). -/
structure FlagBits where
  z : Bool
  odd : Bool
  lt : Bool
  eq : Bool
  gt : Bool
  deriving DecidableEq, Repr

/-- The bytes of `BUF` written since the last reset, as (address, byte) pairs (10_state.md R33; log 4). An address
that is not listed has no byte of its own here and reads as `Config.resetByte` (log 3). -/
abbrev Memory := List Host.Cell

/-- The canonical form of a `Memory`: addresses strictly rising. What an unlisted address stands for here is "not
written since reset", which equals no byte, so no listed entry can equal it (log 4). -/
def Memory.wf : Memory → Bool
  | [] => true
  | [_] => true
  | c :: d :: m => decide (c.1 < d.1) && Memory.wf (d :: m)

/-- The address a host transaction carries: bits 15:2 of a 16-bit byte address (20_memory.md R65, R70). -/
abbrev HostAddr := BitVec 14

/-- The three host actions (00_scope.md R13). -/
inductive HostAction where
  | read (a : HostAddr)
  | write (a : HostAddr) (data : U32)
  | reset
  deriving DecidableEq, Repr

/-- Who moves: the host, with its action, or the engine (10_state.md R20; log 1). -/
inductive Turn where
  | host (act : HostAction)
  | engine
  deriving DecidableEq, Repr

/-- The seven errors of TE128 (60_exceptions.md R243). -/
inductive ErrCode where
  /-- `E_ILLEGAL` -/
  | illegal
  /-- `E_OPERAND` -/
  | operand
  /-- `E_EXPZERO` -/
  | expZero
  /-- `E_RANGE` -/
  | range
  /-- `E_NOKEY` -/
  | noKey
  /-- `E_LEN` -/
  | badLen
  /-- `E_PAD` -/
  | badPad
  deriving DecidableEq, Repr

/-- The architectural state, 10_state.md R21, and after it the model's own fields: the parameters (`cfg`, log 5), the
number of resets the free bytes of `BUF` depend on (`resets`, log 3), who moves next (`turns`, log 1) and what the
host's reads have returned, newest first (`answers`, log 2). -/
structure State where
  q : QFile
  k : KeyFile
  keyValid : Bool
  flags : FlagBits
  len : U32
  cmdr : U32
  busy : Bool
  err : Bool
  hz : Bool
  errCode : BitVec 4
  buf : Memory
  cfg : Config.Params
  resets : Nat
  turns : List Turn
  answers : List U32
  deriving DecidableEq, Repr

/-- Why the machine stops with a fault: never. TE128 latches every error and goes on (60_exceptions.md R242, R248), so
this type has no constructor. Safe: there is no stop to rely on. -/
inductive Fault
  deriving DecidableEq, Repr

/-- Why the model gives an instruction no meaning. -/
inductive Refusal where
  /-- Raised by an arm of `exec` for an instruction that has no meaning yet; no arm raises it now. Safe. -/
  | notModelled (mnemonic : String)
  deriving DecidableEq, Repr

/-- 10_state.md R36: every register 0. `BUF` lists nothing (R271). The model's own fields: the default parameters, no
reset counted, no turn, no answer (logs 1, 2, 3, 5). -/
def State.reset : State :=
  { q := ⟨0#128, 0#128, 0#128, 0#128⟩
    k := ⟨0#32, 0#32, 0#32, 0#32⟩
    keyValid := false
    flags := ⟨false, false, false, false, false⟩
    len := 0#32
    cmdr := 0#32
    busy := false
    err := false
    hz := false
    errCode := 0#4
    buf := []
    cfg := Config.Params.default
    resets := 0
    turns := []
    answers := [] }

end Sys2Proof.Machine
end

