-- ==== Sys2Proof/Machine/Ops.lean ====
section
/-! DEFINITION. The named operations over `BUF` and the registers of completion: byte and multi-byte access
(00_scope.md R11, 20_memory.md R61 to R66), success, error entry and error return (60_exceptions.md R241, R244, R249). -/

namespace Sys2Proof.Machine

/-! ### `BUF`, as a list of written bytes -/

/-- The byte written at `a` since reset, if any. -/
def bufLookup : Memory → Nat → Option U8
  | [], _ => none
  | (x, b) :: m, a => if a = x then some b else bufLookup m a

/-- Write one byte, keeping the addresses rising. -/
def bufInsert : Memory → Nat → U8 → Memory
  | [], a, v => [(a, v)]
  | (x, b) :: m, a, v =>
    if a < x then (a, v) :: (x, b) :: m
    else if a = x then (a, v) :: m
    else (x, b) :: bufInsert m a v

/-- Write consecutive bytes from `a` upward. -/
def bufInsertAll : Memory → Nat → List U8 → Memory
  | m, _, [] => m
  | m, a, b :: bs => bufInsertAll (bufInsert m a b) (a + 1) bs

/-- `BUF[a]`: the byte written there, or the free byte of this reset (R271; log 3). -/
def memByte (epoch : Nat) (m : Memory) (a : Nat) : U8 :=
  (bufLookup m a).getD (Config.resetByte epoch a)

/-- The `n` bytes `BUF[a] .. BUF[a+n−1]`. -/
def memBytes (epoch : Nat) (m : Memory) : Nat → Nat → List U8
  | _, 0 => []
  | a, n + 1 => memByte epoch m a :: memBytes epoch m (a + 1) n

/-! ### Byte order (R61: big-endian everywhere in `BUF`) -/

/-- The unsigned integer of a byte string, most significant byte first. -/
def beValueFrom : Nat → List U8 → Nat
  | acc, [] => acc
  | acc, b :: bs => beValueFrom (acc * 256 + b.toNat) bs

/-- The unsigned integer of a byte string, most significant byte first. -/
def beValue (bs : List U8) : Nat := beValueFrom 0 bs

/-- The `n` bytes of `v`, most significant first: byte `k` is `v[8(n−1−k)+7 : 8(n−1−k)]` (00_scope.md R11). -/
def beBytes : Nat → Nat → List U8
  | 0, _ => []
  | n + 1, v => BitVec.ofNat 8 (v >>> (8 * n)) :: beBytes n v

/-- `MemRead(a, n)` (00_scope.md R11). -/
def memRead (epoch : Nat) (m : Memory) (a n : Nat) : Nat := beValue (memBytes epoch m a n)

/-- `MemWrite(a, n, v)` (00_scope.md R11). -/
def memWrite (m : Memory) (a n v : Nat) : Memory := bufInsertAll m a (beBytes n v)

/-! ### The same over a state -/

/-- `BUF[a]`: the model's read of one byte. -/
def bufByte (s : State) (a : Nat) : U8 := memByte s.resets s.buf a

/-- `MemRead(a, 4)`. -/
def bufRead32 (s : State) (a : Nat) : U32 := BitVec.ofNat 32 (memRead s.resets s.buf a 4)

/-- `MemRead(a, 16)`, the binary form of a Uint128 (20_memory.md R62). -/
def bufRead128 (s : State) (a : Nat) : U128 := BitVec.ofNat 128 (memRead s.resets s.buf a 16)

/-- `MemWrite(a, 4, v)`. -/
def bufWrite32 (a : Nat) (v : U32) (s : State) : State :=
  { s with buf := memWrite s.buf a 4 v.toNat }

/-- `MemWrite(a, 16, v)` (20_memory.md R62). -/
def bufWrite128 (a : Nat) (v : U128) (s : State) : State :=
  { s with buf := memWrite s.buf a 16 v.toNat }

/-- The range check `a + n ≤ BUF_BYTES`, in integers (20_memory.md R66). -/
def inRange (s : State) (a n : Nat) : Bool := decide (a + n ≤ s.cfg.bufBytes)

/-! ### The end of a command -/

/-- Success: the completion step also clears `BUSY` (60_exceptions.md R241). -/
def complete (s : State) : Host.Outcome State Fault Refusal := .next { s with busy := false }

/-- The number of an error code (60_exceptions.md R243). -/
def errBits : ErrCode → BitVec 4
  | .illegal => 1#4
  | .operand => 2#4
  | .expZero => 3#4
  | .range => 4#4
  | .noKey => 5#4
  | .badLen => 6#4
  | .badPad => 7#4

/-- TAKING AN EXCEPTION, `raise Err(code)` (60_exceptions.md R244, R248): `ERR <- 1`, `ERRCODE <- code`, `BUSY <- 0`,
and nothing else. -/
def raiseErr (e : ErrCode) (s : State) : Host.Outcome State Fault Refusal :=
  .next { s with err := true, errCode := errBits e, busy := false }

/-- THE RETURN from an error (60_exceptions.md R249): `ERR <- 0`, `ERRCODE <- 0`. -/
def clearErr (s : State) : State := { s with err := false, errCode := 0#4 }

end Sys2Proof.Machine
end

