-- ==== Sys2Proof/Machine/Uint128.lean ====
section
/-! DEFINITION. The pure functions of the extended-precision unit, on the two 64-bit words as the spec writes them
(40_uint128_arith.md R120 to R126). -/

namespace Sys2Proof.Machine

/-- `High(v) = v[127:64]` (00_scope.md R10). -/
def high (v : U128) : U64 := v.extractLsb' Config.wordBits 64

/-- `Low(v) = v[63:0]` (00_scope.md R10). -/
def low (v : U128) : U64 := v.extractLsb' 0 64

/-- The pair `(High, Low)` as one value (00_scope.md R10). -/
def pair (hi lo : U64) : U128 := hi ++ lo

/-- `Add128(a, b)` (R120). -/
def add128 (a b : U128) : U128 :=
  let lo := low a + low b
  let carry : U64 := if 2 ^ Config.wordBits ≤ (low a).toNat + (low b).toNat then 1#64 else 0#64
  pair (high a + high b + carry) lo

/-- `Not128(b)` (R121). -/
def not128 (b : U128) : U128 :=
  pair (high b ^^^ 0xFFFFFFFFFFFFFFFF#64) (low b ^^^ 0xFFFFFFFFFFFFFFFF#64)

/-- `Neg128(b)` (R121). -/
def neg128 (b : U128) : U128 := add128 (not128 b) 1#128

/-- `Sub128(a, b)` (R121). -/
def sub128 (a b : U128) : U128 := add128 a (neg128 b)

/-- `Shl1(a)` (R122). -/
def shl1 (a : U128) : U128 := pair ((high a <<< 1) ||| (low a >>> (Config.wordBits - 1))) (low a <<< 1)

/-- `Shr1(a)` (R123). -/
def shr1 (a : U128) : U128 := pair (high a >>> 1) ((low a >>> 1) ||| ((high a &&& 1#64) <<< (Config.wordBits - 1)))

/-- `Compare(a, b)` (R124): `less` is `.lt`, `equal` is `.eq`, `greater` is `.gt`. -/
def compare128 (a b : U128) : Ordering :=
  if high a ≠ high b then (if (high b).toNat < (high a).toNat then .gt else .lt)
  else if low a ≠ low b then (if (low b).toNat < (low a).toNat then .gt else .lt)
  else .eq

/-- `IsZero(a)` (R125). -/
def isZero (a : U128) : Bool := high a == 0#64 && low a == 0#64

/-- `IsOdd(a)` (R126). -/
def isOdd (a : U128) : Bool := (low a).getLsbD 0

end Sys2Proof.Machine
end

