-- ==== Sys2Proof/Machine/Flags.lean ====
section
/-! DEFINITION. Every flag computation (10_state.md R28; 40_uint128_arith.md R136, R137) and the two status words the
host reads (20_memory.md R71). -/

namespace Sys2Proof.Machine

/-- `CMP`: exactly one of LT, EQ, GT becomes 1; Z and ODD are kept (R136). -/
def compareFlags (a b : U128) (f : FlagBits) : FlagBits :=
  let r := compare128 a b
  { f with lt := decide (r = .lt), eq := decide (r = .eq), gt := decide (r = .gt) }

/-- `TEST`: Z and ODD; LT, EQ, GT are kept (R137). -/
def testFlags (a : U128) (f : FlagBits) : FlagBits := { f with z := isZero a, odd := isOdd a }

/-- `FLAGS` as the host reads it: `zext_32({GT, EQ, LT, ODD, Z})` (R28, R71). -/
def flagsWord (f : FlagBits) : U32 :=
  0#27 ++ BitVec.ofBool f.gt ++ BitVec.ofBool f.eq ++ BitVec.ofBool f.lt ++ BitVec.ofBool f.odd ++ BitVec.ofBool f.z

/-- `STATUS` as the host reads it: `zext_32({ERRCODE[3:0], KEYVALID, HZ, ERR, BUSY})` (R31, R71). -/
def statusWord (s : State) : U32 :=
  0#24 ++ s.errCode ++ BitVec.ofBool s.keyValid ++ BitVec.ofBool s.hz ++ BitVec.ofBool s.err ++ BitVec.ofBool s.busy

end Sys2Proof.Machine
end

