-- ==== Sys2Proof/Machine/Operands.lean ====
section
/-! DEFINITION. The operand forms: general registers and their 32-bit words (10_state.md R22, R23), the loadable
constants (40_uint128_arith.md R131), the key words (10_state.md R25). -/

namespace Sys2Proof.Machine

/-- `Q[i]`. -/
def readQ (r : QReg) (s : State) : U128 :=
  match r with
  | .q0 => s.q.q0
  | .q1 => s.q.q1
  | .q2 => s.q.q2
  | .q3 => s.q.q3

/-- The register file with `Q[i]` replaced. -/
def setQ (r : QReg) (v : U128) (f : QFile) : QFile :=
  match r with
  | .q0 => { f with q0 := v }
  | .q1 => { f with q1 := v }
  | .q2 => { f with q2 := v }
  | .q3 => { f with q3 := v }

/-- `Q[i] <- v`. -/
def writeQ (r : QReg) (v : U128) (s : State) : State := { s with q := setQ r v s.q }

/-- Word `w` of a 128-bit value: bits `32w+31 : 32w` (10_state.md R23; also the key words, 44_blockcipher.md R200). -/
def word32 (v : U128) (w : BitVec 2) : U32 := v.extractLsb' (32 * w.toNat) 32

/-- A 128-bit value with word `w` replaced and the other 96 bits kept (10_state.md R23). -/
def setWord32 (v : U128) (w : BitVec 2) (d : U32) : U128 :=
  if w = 0#2 then word32 v 3#2 ++ word32 v 2#2 ++ word32 v 1#2 ++ d
  else if w = 1#2 then word32 v 3#2 ++ word32 v 2#2 ++ d ++ word32 v 0#2
  else if w = 2#2 then word32 v 3#2 ++ d ++ word32 v 1#2 ++ word32 v 0#2
  else d ++ word32 v 2#2 ++ word32 v 1#2 ++ word32 v 0#2

/-- The constants `C[0]` to `C[3]` of `LDC`: ZERO, P, INVERT_P, G (R131). -/
def constOf (id : U16) : Option U128 :=
  if id = 0#16 then some 0#128
  else if id = 1#16 then some Config.prime
  else if id = 2#16 then some Config.invertP
  else if id = 3#16 then some Config.generator
  else none

/-- `K[j]`. -/
def keyWord (k : KeyFile) (j : BitVec 2) : U32 :=
  if j = 0#2 then k.k0 else if j = 1#2 then k.k1 else if j = 2#2 then k.k2 else k.k3

end Sys2Proof.Machine
end

