-- ==== Sys2Proof/Machine/Arith.lean ====
section
/-! DEFINITION. The meanings of `NOP`, `MOV`, `LDC`, `ADD`, `SUB`, `SHL1`, `SHR1`, `CMP`, `TEST`
(40_uint128_arith.md R130 to R139). Each is the whole completion step of a well-formed word (60_exceptions.md R241). -/

namespace Sys2Proof.Machine

/-- `NOP` (R139). -/
def execNop (s : State) : Host.Outcome State Fault Refusal := complete s

/-- `MOV qd, qa` (R130). -/
def execMov (qd qa : QReg) (s : State) : Host.Outcome State Fault Refusal :=
  complete (writeQ qd (readQ qa s) s)

/-- `LDC qd, #id` (R131): `E_ILLEGAL` when the id is above 3. -/
def execLdc (qd : QReg) (id : U16) (s : State) : Host.Outcome State Fault Refusal :=
  match constOf id with
  | some c => complete (writeQ qd c s)
  | none => raiseErr .illegal s

/-- `ADD qd, qa, qb` (R132). -/
def execAdd (qd qa qb : QReg) (s : State) : Host.Outcome State Fault Refusal :=
  complete (writeQ qd (add128 (readQ qa s) (readQ qb s)) s)

/-- `SUB qd, qa, qb` (R133). -/
def execSub (qd qa qb : QReg) (s : State) : Host.Outcome State Fault Refusal :=
  complete (writeQ qd (sub128 (readQ qa s) (readQ qb s)) s)

/-- `SHL1 qd, qa` (R134). -/
def execShl1 (qd qa : QReg) (s : State) : Host.Outcome State Fault Refusal :=
  complete (writeQ qd (shl1 (readQ qa s)) s)

/-- `SHR1 qd, qa` (R135). -/
def execShr1 (qd qa : QReg) (s : State) : Host.Outcome State Fault Refusal :=
  complete (writeQ qd (shr1 (readQ qa s)) s)

/-- `CMP qa, qb` (R136). -/
def execCmp (qa qb : QReg) (s : State) : Host.Outcome State Fault Refusal :=
  complete { s with flags := compareFlags (readQ qa s) (readQ qb s) s.flags }

/-- `TEST qa` (R137). -/
def execTest (qa : QReg) (s : State) : Host.Outcome State Fault Refusal :=
  complete { s with flags := testFlags (readQ qa s) s.flags }

end Sys2Proof.Machine
end

