-- ==== Sys2Proof/Machine/BlockCipher.lean ====
section
/-! DEFINITION. The pure functions of the cipher unit (44_blockcipher.md R200 to R205) and the block transforms over
`BUF` that the cipher commands share (R208 to R211). -/

namespace Sys2Proof.Machine

/-- `KeyWords(q)` (R200). -/
def keyWords (q : U128) : KeyFile :=
  { k0 := word32 q 0#2, k1 := word32 q 1#2, k2 := word32 q 2#2, k3 := word32 q 3#2 }

/-- `Mix(v)` (R201). -/
def mix (v : U32) : U32 := ((v <<< 4) ^^^ (v >>> 5)) + v

/-- The key index `x AND 3`, with 3 = `KEY_WORDS` − 1 (R202; 00_scope.md R7). -/
def keyIndex (x : U32) : BitVec 2 := (x &&& BitVec.ofNat 32 (Config.keyWords - 1)).setWidth 2

/-- The key term of a `v0` half: `sum + K[sum AND 3]` (R202). -/
def keyTerm0 (k : KeyFile) (sum : U32) : U32 := sum + keyWord k (keyIndex sum)

/-- The key term of a `v1` half: `sum + K[(sum >> 11) AND 3]` (R202). -/
def keyTerm1 (k : KeyFile) (sum : U32) : U32 := sum + keyWord k (keyIndex (sum >>> 11))

/-- The working values of the cipher (not state: 10_state.md R34). -/
structure Round where
  v0 : U32
  v1 : U32
  sum : U32
  deriving DecidableEq, Repr

/-- One round of `EncBlock` (R202). -/
def encRound (k : KeyFile) (x : Round) : Round :=
  let v0 := x.v0 + (mix x.v1 ^^^ keyTerm0 k x.sum)
  let sum := x.sum + Config.delta
  { v0 := v0, v1 := x.v1 + (mix v0 ^^^ keyTerm1 k sum), sum := sum }

/-- One round of `DecBlock` (R203). -/
def decRound (k : KeyFile) (x : Round) : Round :=
  let v1 := x.v1 - (mix x.v0 ^^^ keyTerm1 k x.sum)
  let sum := x.sum - Config.delta
  { v0 := x.v0 - (mix v1 ^^^ keyTerm0 k sum), v1 := v1, sum := sum }

/-- `n` encryption rounds. -/
def encRounds (k : KeyFile) : Nat → Round → Round
  | 0, x => x
  | n + 1, x => encRounds k n (encRound k x)

/-- `n` decryption rounds. -/
def decRounds (k : KeyFile) : Nat → Round → Round
  | 0, x => x
  | n + 1, x => decRounds k n (decRound k x)

/-- `EncBlock(v0, v1, K)` (R202): `sum` starts at 0. -/
def encBlock (k : KeyFile) (v0 v1 : U32) : U32 × U32 :=
  let x := encRounds k Config.rounds ⟨v0, v1, 0#32⟩
  (x.v0, x.v1)

/-- `DecBlock(v0, v1, K)` (R203): `sum` starts at `delta×32 mod 2^32` = 0xC6EF3720. -/
def decBlock (k : KeyFile) (v0 v1 : U32) : U32 × U32 :=
  let x := decRounds k Config.rounds ⟨v0, v1, 0xC6EF3720#32⟩
  (x.v0, x.v1)

/-- `EncryptLength(n)` (R204). -/
def encryptLength (n : Nat) : Nat := n / Config.blockBytes * Config.blockBytes + Config.blockBytes

/-- `DecryptLength(n)` (R205). -/
def decryptLength (n : Nat) : Nat := n

/-- Transform the 8-byte block at `a` in place (R208, R209; 20_memory.md R63). -/
def transformBlock (f : U32 → U32 → U32 × U32) (epoch : Nat) (m : Memory) (a : Nat) : Memory :=
  let v := f (BitVec.ofNat 32 (memRead epoch m a 4)) (BitVec.ofNat 32 (memRead epoch m (a + 4) 4))
  memWrite (memWrite m a 4 v.1.toNat) (a + 4) 4 v.2.toNat

/-- Transform the blocks 0 .. n−1 in place, in that order (R210, R211). -/
def transformBlocks (f : U32 → U32 → U32 × U32) (epoch : Nat) (m : Memory) : Nat → Memory
  | 0 => m
  | n + 1 => transformBlock f epoch (transformBlocks f epoch m n) (Config.blockBytes * n)

/-- The padding of R210: `BUF[8·full + k] <- 8 − r` for `k = r .. 7`. -/
def padBlock (m : Memory) (full r : Nat) : Memory :=
  let count := Config.blockBytes - r
  bufInsertAll m (Config.blockBytes * full + r) (List.replicate count (BitVec.ofNat 8 count))

/-- What `ENC #n` makes of `BUF` (R210). -/
def encryptBuf (k : KeyFile) (epoch : Nat) (m : Memory) (n : Nat) : Memory :=
  let full := n / Config.blockBytes
  transformBlock (encBlock k) epoch
    (padBlock (transformBlocks (encBlock k) epoch m full) full (n % Config.blockBytes)) (Config.blockBytes * full)

/-- The scratch block of `DEC #n`: the last block decrypted, as 8 bytes (R211). -/
def scratchBlock (k : KeyFile) (epoch : Nat) (m : Memory) (n : Nat) : List U8 :=
  let a := n - Config.blockBytes
  let v := decBlock k (BitVec.ofNat 32 (memRead epoch m a 4)) (BitVec.ofNat 32 (memRead epoch m (n - 4) 4))
  beBytes 4 v.1.toNat ++ beBytes 4 v.2.toNat

/-- `padLen`, the last byte of the scratch block (R211). -/
def padLen (scratch : List U8) : Nat := (scratch.getLastD 0#8).toNat

/-- What a successful `DEC #n` makes of `BUF` (R211): all blocks but the last in place, then the first `8 − padLen`
scratch bytes; the pad bytes themselves are not written. -/
def decryptBuf (k : KeyFile) (epoch : Nat) (m : Memory) (n : Nat) : Memory :=
  let scratch := scratchBlock k epoch m n
  bufInsertAll (transformBlocks (decBlock k) epoch m (n / Config.blockBytes - 1)) (n - Config.blockBytes)
    (scratch.take (Config.blockBytes - padLen scratch))

end Sys2Proof.Machine
end

