-- ==== Sys2Proof/Machine/Cipher.lean ====
section
/-! DEFINITION. The meanings of `SETKEY`, `ENCBLK`, `DECBLK`, `ENC`, `DEC`, `ELEN`, `DLEN`
(44_blockcipher.md R206 to R213). The checks stand in the order of R207 and 60_exceptions.md R247. -/

namespace Sys2Proof.Machine

/-- `SETKEY qa` (R206). -/
def execSetkey (qa : QReg) (s : State) : Host.Outcome State Fault Refusal :=
  complete { s with k := keyWords (readQ qa s), keyValid := true }

/-- `ENCBLK [off]` (R208). -/
def execEncblk (off : U16) (s : State) : Host.Outcome State Fault Refusal :=
  if !s.keyValid then raiseErr .noKey s
  else if !inRange s off.toNat Config.blockBytes then raiseErr .range s
  else complete { s with buf := transformBlock (encBlock s.k) s.resets s.buf off.toNat }

/-- `DECBLK [off]` (R209). -/
def execDecblk (off : U16) (s : State) : Host.Outcome State Fault Refusal :=
  if !s.keyValid then raiseErr .noKey s
  else if !inRange s off.toNat Config.blockBytes then raiseErr .range s
  else complete { s with buf := transformBlock (decBlock s.k) s.resets s.buf off.toNat }

/-- `ENC #len` (R210). -/
def execEnc (len : U16) (s : State) : Host.Outcome State Fault Refusal :=
  if !s.keyValid then raiseErr .noKey s
  else if !inRange s 0 (encryptLength len.toNat) then raiseErr .range s
  else complete
    { s with
      buf := encryptBuf s.k s.resets s.buf len.toNat
      len := BitVec.ofNat 32 (encryptLength len.toNat) }

/-- `DEC #len` (R211). -/
def execDec (len : U16) (s : State) : Host.Outcome State Fault Refusal :=
  let n := len.toNat
  let pad := padLen (scratchBlock s.k s.resets s.buf n)
  if !s.keyValid then raiseErr .noKey s
  else if n = 0 ∨ n % Config.blockBytes ≠ 0 then raiseErr .badLen s
  else if !inRange s 0 n then raiseErr .range s
  else if pad < 1 ∨ Config.blockBytes < pad then raiseErr .badPad s
  else complete
    { s with
      buf := decryptBuf s.k s.resets s.buf n
      len := BitVec.ofNat 32 (n - Config.blockBytes + (Config.blockBytes - pad)) }

/-- `ELEN #len` (R212). -/
def execElen (len : U16) (s : State) : Host.Outcome State Fault Refusal :=
  complete { s with len := BitVec.ofNat 32 (encryptLength len.toNat) }

/-- `DLEN #len` (R213). -/
def execDlen (len : U16) (s : State) : Host.Outcome State Fault Refusal :=
  complete { s with len := BitVec.ofNat 32 (decryptLength len.toNat) }

end Sys2Proof.Machine
end

