-- ==== Sys2Proof/Machine/ModField.lean ====
section
/-! DEFINITION. The pure functions of the modular unit (42_modfield.md R170, R173, R174): double-and-add and
square-and-multiply, on 128-bit values only. -/

namespace Sys2Proof.Machine

/-- The variables of the loop of R170 (working storage, not state: 10_state.md R34). -/
structure MulState where
  r : U128
  a : U128
  b : U128
  deriving DecidableEq, Repr

/-- One iteration of R170, lines 4 to 15. -/
def mulModBody (m : MulState) : MulState :=
  let t := sub128 Config.prime m.a
  { r :=
      if isOdd m.b then (if compare128 m.r t ≠ .lt then sub128 m.r t else add128 m.r m.a) else m.r
    a := if compare128 m.a t ≠ .lt then add128 (shl1 m.a) Config.invertP else shl1 m.a
    b := shr1 m.b }

/-- `while not IsZero(b)`: `b` is 128 bits and loses one at each iteration, so 128 iterations always suffice
(R179; 90_conflicts.md C2). -/
def mulModLoop : Nat → MulState → U128
  | 0, m => m.r
  | n + 1, m => if isZero m.b then m.r else mulModLoop n (mulModBody m)

/-- `MulMod(a, b)`, defined for `a < P` (R170; outside that see log 9). -/
def mulMod (a b : U128) : U128 := mulModLoop Config.width ⟨0#128, a, b⟩

/-- `PowRec(a, b)` of R173, for `a < P`, `b ≠ 0`. The exponent is halved at most 127 times (90_conflicts.md C9), so
128 calls always suffice; what stands for no calls left is used by nothing (log 9). -/
def powRec : Nat → U128 → U128 → U128
  | 0, a, _ => a
  | n + 1, a, b =>
    if b = 1#128 then a
    else
      let t := powRec n a (shr1 b)
      let t2 := mulMod t t
      if isOdd b then mulMod t2 a else t2

/-- The single subtraction that reduces a base (R173). -/
def reduceOnce (a : U128) : U128 :=
  if compare128 a Config.prime ≠ .lt then sub128 a Config.prime else a

/-- `PowMod(a, b)`, defined for `b ≠ 0` (R173). -/
def powMod (a b : U128) : U128 := powRec Config.width (reduceOnce a) b

/-- The loop of R174 from bit `i − 1` down to bit 0. -/
def powIterLoop (a b : U128) : Nat → U128 → U128
  | 0, t => t
  | i + 1, t =>
    let t2 := mulMod t t
    powIterLoop a b i (if b.getLsbD i then mulMod t2 a else t2)

/-- `PowMod` in the iterative form of R174: the leading 1 bit, at index `m`, costs no multiplication. -/
def powModIter (a b : U128) : U128 :=
  let a' := reduceOnce a
  powIterLoop a' b (Nat.log2 b.toNat) a'

end Sys2Proof.Machine
end

