-- ==== Sys2Proof/Machine/Modular.lean ====
section
/-! DEFINITION. The meanings of `MULMOD` and `POWMOD` (42_modfield.md R176, R177). -/

namespace Sys2Proof.Machine

/-- `MULMOD qd, qa, qb` (R176): `E_OPERAND` when the multiplicand is not below `P`. -/
def execMulmod (qd qa qb : QReg) (s : State) : Host.Outcome State Fault Refusal :=
  if compare128 (readQ qa s) Config.prime ≠ .lt then raiseErr .operand s
  else complete (writeQ qd (mulMod (readQ qa s) (readQ qb s)) s)

/-- `POWMOD qd, qa, qb` (R177): `E_EXPZERO` when the exponent is zero. -/
def execPowmod (qd qa qb : QReg) (s : State) : Host.Outcome State Fault Refusal :=
  if isZero (readQ qb s) then raiseErr .expZero s
  else complete (writeQ qd (powMod (readQ qa s) (readQ qb s)) s)

end Sys2Proof.Machine
end

