-- ==== Sys2Proof/Machine/Transfer.lean ====
section
/-! DEFINITION. The meanings of `LDQ` and `STQ` (41_uint128_serial.md R152, R153). -/

namespace Sys2Proof.Machine

/-- `LDQ qd, [off]` (R152). -/
def execLdq (qd : QReg) (off : U16) (s : State) : Host.Outcome State Fault Refusal :=
  if inRange s off.toNat 16 then complete (writeQ qd (bufRead128 s off.toNat) s)
  else raiseErr .range s

/-- `STQ qa, [off]` (R153). -/
def execStq (qa : QReg) (off : U16) (s : State) : Host.Outcome State Fault Refusal :=
  if inRange s off.toNat 16 then complete (bufWrite128 off.toNat (readQ qa s) s)
  else raiseErr .range s

end Sys2Proof.Machine
end

