-- ==== Sys2Proof/Machine/Dispatch.lean ====
section
/-! DEFINITION. One arm per command: the completion step of a decoded command (60_exceptions.md R241). -/

namespace Sys2Proof.Machine

def exec (i : Instr) (s : State) : Host.Outcome State Fault Refusal :=
  match i with
  | .nop => Sys2Proof.Machine.execNop s
  | .mov qd qa => Sys2Proof.Machine.execMov qd qa s
  | .ldc qd id => Sys2Proof.Machine.execLdc qd id s
  | .add qd qa qb => Sys2Proof.Machine.execAdd qd qa qb s
  | .sub qd qa qb => Sys2Proof.Machine.execSub qd qa qb s
  | .shl1 qd qa => Sys2Proof.Machine.execShl1 qd qa s
  | .shr1 qd qa => Sys2Proof.Machine.execShr1 qd qa s
  | .cmp qa qb => Sys2Proof.Machine.execCmp qa qb s
  | .test qa => Sys2Proof.Machine.execTest qa s
  | .mulmod qd qa qb => Sys2Proof.Machine.execMulmod qd qa qb s
  | .powmod qd qa qb => Sys2Proof.Machine.execPowmod qd qa qb s
  | .ldq qd off => Sys2Proof.Machine.execLdq qd off s
  | .stq qa off => Sys2Proof.Machine.execStq qa off s
  | .setkey qa => Sys2Proof.Machine.execSetkey qa s
  | .encblk off => Sys2Proof.Machine.execEncblk off s
  | .decblk off => Sys2Proof.Machine.execDecblk off s
  | .enc len => Sys2Proof.Machine.execEnc len s
  | .dec len => Sys2Proof.Machine.execDec len s
  | .elen len => Sys2Proof.Machine.execElen len s
  | .dlen len => Sys2Proof.Machine.execDlen len s

end Sys2Proof.Machine
end

