-- ==== Sys2Proof/Machine/HostPort.lean ====
section
/-! DEFINITION. The host's three actions: the address map (20_memory.md R68), reads (R71), writes (R72), access while
busy (R73), the window (R74), issue (60_exceptions.md R240), the write-1-to-clear bits of `STATUS` (10_state.md R32)
and `Reset` (70_reset_and_hazards.md R270). -/

namespace Sys2Proof.Machine

/-- What a host address names (R68). -/
inductive HostTarget where
  | cmd
  | status
  | flags
  | len
  | qWord (r : QReg) (w : BitVec 2)
  /-- The four buffer bytes from this address. -/
  | window (a : Nat)
  | reserved
  deriving DecidableEq, Repr

/-- The byte address a transaction's address bits 15:2 stand for. -/
def byteAddr (a : HostAddr) : Nat := a.toNat * 4

/-- The register whose number is `i`. -/
def regNumber (i : Nat) : QReg :=
  if i = 0 then .q0 else if i = 1 then .q1 else if i = 2 then .q2 else .q3

/-- The address map (R68, R71, R72). -/
def hostTarget (bufBytes : Nat) (a : HostAddr) : HostTarget :=
  let b := byteAddr a
  if b = 0x0000 then .cmd
  else if b = 0x0004 then .status
  else if b = 0x0008 then .flags
  else if b = 0x000C then .len
  else if 0x0010 ≤ b ∧ b ≤ 0x004C then
    .qWord (regNumber ((b - 0x0010) / 16)) (BitVec.ofNat 2 ((b - 0x0010) % 16 / 4))
  else if 0x1000 ≤ b ∧ b < 0x1000 + bufBytes then .window (b - 0x1000)
  else .reserved

/-- The value of R71. -/
def readTarget (t : HostTarget) (s : State) : U32 :=
  match t with
  | .cmd => s.cmdr
  | .status => statusWord s
  | .flags => flagsWord s.flags
  | .len => s.len
  | .qWord r w => word32 (readQ r s) w
  | .window a => bufRead32 s a
  | .reserved => 0#32

/-- `HZ <- 1` (R73). -/
def setHz (s : State) : State := { s with hz := true }

/-- `HostRead(addr)`: the word returned and the state left (R71, R73). -/
def hostRead (a : HostAddr) (s : State) : U32 × State :=
  let t := hostTarget s.cfg.bufBytes a
  if s.busy ∧ t ≠ .status then (0#32, setHz s) else (readTarget t s, s)

/-- An issue attempt while `BUSY = 0` (R240 (b) and (c)). -/
def issue (w : U32) (s : State) : State :=
  if s.err then s else { s with cmdr := w, busy := true }

/-- A host write to `STATUS` (R32). -/
def writeStatus (data : U32) (s : State) : State :=
  let s1 := if data.getLsbD 1 ∧ s.busy = false then clearErr s else s
  if data.getLsbD 2 then { s1 with hz := false } else s1

/-- The effect of R72. -/
def writeTarget (t : HostTarget) (data : U32) (s : State) : State :=
  match t with
  | .cmd => issue data s
  | .status => writeStatus data s
  | .flags => s
  | .len => s
  | .qWord r w => writeQ r (setWord32 (readQ r s) w data) s
  | .window a => bufWrite32 a data s
  | .reserved => s

/-- `HostWrite(addr, data)` (R72, R73). -/
def hostWrite (a : HostAddr) (data : U32) (s : State) : State :=
  let t := hostTarget s.cfg.bufBytes a
  if s.busy ∧ t ≠ .status then setHz s else writeTarget t data s

/-- `Reset` (R270, R271): every register as in 10_state.md R36, `BUF` unspecified anew, a command in flight abandoned.
The parameters and the host's own records stay (log 14). -/
def resetAction (s : State) : State :=
  { State.reset with cfg := s.cfg, resets := s.resets + 1, turns := s.turns, answers := s.answers }

/-- One host action; what a read returns is recorded in `answers` (log 2). -/
def hostAct (act : HostAction) (s : State) : State :=
  match act with
  | .read a => { (hostRead a s).2 with answers := (hostRead a s).1 :: s.answers }
  | .write a data => hostWrite a data s
  | .reset => resetAction s

end Sys2Proof.Machine
end

