-- ==== Sys2Proof/Machine/Engine.lean ====
section
/-! DEFINITION. The engine's step (60_exceptions.md R241) and the turn taken next (10_state.md R20; log 1). -/

namespace Sys2Proof.Machine

/-- The command word in flight (10_state.md R30). -/
def fetch (s : State) : U32 := s.cmdr

/-- The completion step: decode `CMDR`, then the command's rule, or `E_ILLEGAL` (30_encoding.md R97;
60_exceptions.md R241, R245). -/
def completion (s : State) : Host.Outcome State Fault Refusal :=
  match decode (fetch s) with
  | .command i => exec i s
  | .illegal _ => raiseErr .illegal s

/-- The engine has a step exactly when `BUSY = 1` (R241). -/
def engineTurn (s : State) : Host.Outcome State Fault Refusal :=
  if s.busy then completion s else .next s

/-- The next turn. With no turn listed the engine moves, so a command in flight always completes
(70_reset_and_hazards.md R276); an idle machine stays as it is (log 7). -/
def takeTurn (s : State) : Host.Outcome State Fault Refusal :=
  match s.turns with
  | [] => engineTurn s
  | .engine :: ts => engineTurn { s with turns := ts }
  | .host act :: ts => .next (hostAct act { s with turns := ts })

end Sys2Proof.Machine
end

