-- ==== Sys2Proof/Machine/Step.lean ====
section
/-! DEFINITION. One step of TE128, and the placing of a command where the next step runs it. -/

namespace Sys2Proof.Machine

/-- One step: a host action or the engine's completion (10_state.md R20). -/
def step (s : State) : Host.Outcome State Fault Refusal := takeTurn s

/-- `s` with the table word `w` in flight and the engine to move, so that the next step completes it (log 6). -/
def State.withFetchWord (s : State) (nbits w : Nat) : State :=
  { s with cmdr := tableWord nbits w, busy := true, turns := .engine :: s.turns }

end Sys2Proof.Machine
end

