-- ==== Sys2Proof/Machine/HostCodecs.lean ====
section
/-! DEFINITION. The host functions of the Uint128 component, beside the hardware (00_scope.md R4;
41_uint128_serial.md R156 to R163). Texts are lists of characters. -/

namespace Sys2Proof.Machine

/-- `ToBytes(v)`: 16 bytes, High then Low, each big-endian (R150, R156). -/
def toBytes (v : U128) : List U8 := beBytes 16 v.toNat

/-- The last `n` elements of a list (all of it when it is shorter). -/
def lastN {α : Type} (n : Nat) (l : List α) : List α := l.drop (l.length - n)

/-- `FromBytes(bytes)`: the last 16 bytes determine the value, shorter input is zero-extended (R157). -/
def fromBytes (bs : List U8) : U128 := BitVec.ofNat 128 (beValue (lastN 16 bs))

/-- The digits of `ToHex` (R158). -/
def hexAlphabet : List Char :=
  ['0', '1', '2', '3', '4', '5', '6', '7', '8', '9', 'a', 'b', 'c', 'd', 'e', 'f']

/-- The `n` lower-case hexadecimal digits of `v`, most significant first. -/
def hexDigits : Nat → Nat → List Char
  | 0, _ => []
  | n + 1, v => hexAlphabet.getD (v >>> (4 * n) % 16) '0' :: hexDigits n v

/-- `ToHex(v)`: 32 lower-case digits, no leading `0x` (R158). -/
def toHex (v : U128) : List Char := hexDigits 32 v.toNat

/-- The value of a hexadecimal digit, upper or lower case (R159, D28). -/
def hexValue (c : Char) : Option Nat :=
  let n := c.toNat
  if 48 ≤ n ∧ n ≤ 57 then some (n - 48)
  else if 97 ≤ n ∧ n ≤ 102 then some (n - 87)
  else if 65 ≤ n ∧ n ≤ 70 then some (n - 55)
  else none

/-- The number of a digit string, none at the first character that is no digit. -/
def hexNumber : Nat → List Char → Option Nat
  | acc, [] => some acc
  | acc, c :: cs =>
    match hexValue c with
    | some d => hexNumber (acc * 16 + d) cs
    | none => none

/-- `FromHex(text)` where the examined text is well-formed: only the last 32 characters count (R159). -/
def parseHex (t : List Char) : Option U128 := (hexNumber 0 (lastN 32 t)).map (BitVec.ofNat 128)

/-- `FromHex(text)`: any invalid examined character gives zero (R159, R163). -/
def fromHex (t : List Char) : U128 := (parseHex t).getD 0#128

/-- The standard base64 alphabet (R160, from the spec's general-knowledge passage K1; log 11). -/
def base64Alphabet : List Char :=
  ['A', 'B', 'C', 'D', 'E', 'F', 'G', 'H', 'I', 'J', 'K', 'L', 'M', 'N', 'O', 'P',
   'Q', 'R', 'S', 'T', 'U', 'V', 'W', 'X', 'Y', 'Z', 'a', 'b', 'c', 'd', 'e', 'f'] ++
  ['g', 'h', 'i', 'j', 'k', 'l', 'm', 'n', 'o', 'p', 'q', 'r', 's', 't', 'u', 'v',
   'w', 'x', 'y', 'z', '0', '1', '2', '3', '4', '5', '6', '7', '8', '9', '+', '/']

/-- The character of a 6-bit value. -/
def base64Char (n : Nat) : Char := base64Alphabet.getD (n % 64) 'A'

/-- The 6-bit value of a character of the alphabet. -/
def base64Value (c : Char) : Option Nat :=
  let n := c.toNat
  if 65 ≤ n ∧ n ≤ 90 then some (n - 65)
  else if 97 ≤ n ∧ n ≤ 122 then some (n - 71)
  else if 48 ≤ n ∧ n ≤ 57 then some (n + 4)
  else if n = 43 then some 62
  else if n = 47 then some 63
  else none

/-- Bytes three at a time as a 24-bit group, four characters each; a final group of one or two bytes is filled with
zero bits and `=` (R160). -/
def base64Encode : List U8 → List Char
  | [] => []
  | [a] => [base64Char (a.toNat / 4), base64Char (a.toNat % 4 * 16), '=', '=']
  | [a, b] =>
    [base64Char (a.toNat / 4), base64Char (a.toNat % 4 * 16 + b.toNat / 16), base64Char (b.toNat % 16 * 4), '=']
  | a :: b :: c :: bs =>
    base64Char (a.toNat / 4) :: base64Char (a.toNat % 4 * 16 + b.toNat / 16) ::
      base64Char (b.toNat % 16 * 4 + c.toNat / 64) :: base64Char (c.toNat % 64) :: base64Encode bs

/-- `ToBase64(v)` (R161). -/
def toBase64 (v : U128) : List Char := base64Encode (toBytes v)

/-- The three bytes of four 6-bit values. -/
def base64Group (p q r s : Nat) : List U8 :=
  [BitVec.ofNat 8 (p * 4 + q / 16), BitVec.ofNat 8 (q % 16 * 16 + r / 4), BitVec.ofNat 8 (r % 4 * 64 + s)]

/-- The bytes of the last group, where `=` may fill the last one or two positions (R162). -/
def base64Last (a b c d : Char) : Option (List U8) :=
  match base64Value a, base64Value b with
  | some p, some q =>
    if c = '=' ∧ d = '=' then some ((base64Group p q 0 0).take 1)
    else if d = '=' then (base64Value c).map fun r => (base64Group p q r 0).take 2
    else match base64Value c, base64Value d with
      | some r, some s => some (base64Group p q r s)
      | _, _ => none
  | _, _ => none

/-- The bytes of a valid text; none for an invalid one: a length that is no multiple of 4, or a character outside the
alphabet other than `=` in the last one or two positions (R162). -/
def base64Decode : List Char → Option (List U8)
  | [] => some []
  | [a, b, c, d] => base64Last a b c d
  | a :: b :: c :: d :: cs =>
    match base64Value a, base64Value b, base64Value c, base64Value d, base64Decode cs with
    | some p, some q, some r, some s, some bs => some (base64Group p q r s ++ bs)
    | _, _, _, _, _ => none
  | _ => none

/-- `FromBase64(text)`, with the parameter `B64_OTHER_LENGTH` (R162). -/
def fromBase64 (other : Config.B64OtherLength) (t : List Char) : U128 :=
  match base64Decode t with
  | none => 0#128
  | some bs =>
    if bs.length = 16 then fromBytes bs
    else match other with
      | .zero => 0#128
      | .fromBytes => fromBytes bs

end Sys2Proof.Machine
end

