-- ==== Sys2Proof/Machine/HostProgram.lean ====
section
/-! DEFINITION. The host's notations as lists of turns (30_encoding.md R100) and the pseudo-instructions (R101). -/

namespace Sys2Proof.Machine

/-- The word address of `CMD`. -/
def cmdAddr : HostAddr := 0#14

/-- The word address of `STATUS`. -/
def statusAddr : HostAddr := 1#14

/-- The word address of word `w` of `Q[r]`: byte address `0x0010 + 16·i + 4·w` (20_memory.md R68). -/
def qAddr (r : QReg) (w : BitVec 2) : HostAddr :=
  BitVec.ofNat 14 ((0x0010 + 16 * (regBits r).toNat + 4 * w.toNat) / 4)

/-- The word address of window word `k`: byte address `0x1000 + 4·k` (R68). -/
def windowAddr (k : Nat) : HostAddr := BitVec.ofNat 14 ((0x1000 + 4 * k) / 4)

/-- Write a word to `CMD` and let the engine move. -/
def issueTurns (w : U32) : List Turn := [.host (.write cmdAddr w), .engine]

/-- A command mnemonic in a program: the write to `CMD`, the completion, and the read of `STATUS` that ends `WAIT`;
that no read comes before the completion is the model's choice of the shortest `WAIT` (DESIGN CHOICE, log 16). -/
def commandTurns (i : Instr) : List Turn := issueTurns (encode i) ++ [.host (.read statusAddr)]

/-- `SETQ qi, value`: the four writes that load a register, word 0 first. -/
def setQTurns (r : QReg) (v : U128) : List Turn :=
  [.host (.write (qAddr r 0#2) (word32 v 0#2)), .host (.write (qAddr r 1#2) (word32 v 1#2)),
   .host (.write (qAddr r 2#2) (word32 v 2#2)), .host (.write (qAddr r 3#2) (word32 v 3#2))]

/-- `GETQ qi`: the four reads. That word 0 comes first here too is the model's choice (DESIGN CHOICE, log 16): R100 says
"word 0 first" of `SETQ` only. -/
def getQTurns (r : QReg) : List Turn :=
  [.host (.read (qAddr r 0#2)), .host (.read (qAddr r 1#2)), .host (.read (qAddr r 2#2)), .host (.read (qAddr r 3#2))]

/-- The pseudo-instructions of R101. -/
inductive Pseudo where
  | add (qd qb : QReg)
  | sub (qd qb : QReg)
  | shl1 (qd : QReg)
  | shr1 (qd : QReg)
  | clr (qd : QReg)
  | dhpub (qd qa : QReg)
  | dhsec (qd qa qb : QReg)
  deriving DecidableEq, Repr

/-- The expansions of R101; none where the table forbids the operands (`DHPUB` requires `qd ≠ qa`). -/
def expand : Pseudo → Option (List Instr)
  | .add qd qb => some [.add qd qd qb]
  | .sub qd qb => some [.sub qd qd qb]
  | .shl1 qd => some [.shl1 qd qd]
  | .shr1 qd => some [.shr1 qd qd]
  | .clr qd => some [.ldc qd 0#16]
  | .dhpub qd qa => if qd = qa then none else some [.ldc qd 3#16, .powmod qd qd qa]
  | .dhsec qd qa qb => some [.powmod qd qb qa]

end Sys2Proof.Machine
end

