-- ==== Sys2Proof/Machine/KeyExchange.lean ====
section
/-! DEFINITION. The key exchange, host functions over the modular unit (43_keyexchange.md R190 to R195). The random
draws are arguments (R192; log 12). -/

namespace Sys2Proof.Machine

/-- A KeyPair (R190). -/
structure KeyPair where
  publicKey : U128
  privateKey : U128
  deriving DecidableEq, Repr

/-- The invariant of a generated KeyPair: `PublicKey = G^PrivateKey mod P` (R190). -/
def KeyPair.generated (p : KeyPair) : Prop := p.publicKey = powMod Config.generator p.privateKey

/-- `Random128()` over four draws in call order: `{d0, d1, d2, d3}` (R192). -/
def random128 (d0 d1 d2 d3 : U32) : U128 := d0 ++ d1 ++ d2 ++ d3

/-- `PowMod` as the host obtains it from `POWMOD`: nothing for exponent 0, which ends in `E_EXPZERO`
(42_modfield.md R177). -/
def hostPowMod (a b : U128) : Option U128 := if isZero b then none else some (powMod a b)

/-- `GenerateKeyPair()` for one draw of the private key; none when the draw is zero, and the host draws again
(R191; 90_conflicts.md C7). -/
def generateKeyPair (priv : U128) : Option KeyPair :=
  (hostPowMod Config.generator priv).map fun pub => { publicKey := pub, privateKey := priv }

/-- `DeriveSecret(privateKey, peerPublicKey)` (R193). -/
def deriveSecret (priv peer : U128) : Option U128 := hostPowMod peer priv

end Sys2Proof.Machine
end

