-- ==== Sys2Proof/Safety.lean ====
section
/-! DEFINITION. The terms claims are written in: quiescent and clean states, the state invariant, what a command
leaves unchanged. -/

namespace Sys2Proof.Machine

/-- A quiescent state: `BUSY = 0` (70_reset_and_hazards.md R278). -/
def quiescent (s : State) : Prop := s.busy = false

/-- The end of a clean run (R278): over, with `ERR = 0` and `HZ = 0`. -/
def clean (s : State) : Prop := quiescent s ∧ s.turns = [] ∧ s.err = false ∧ s.hz = false

/-- What every reachable state satisfies. -/
structure Inv (s : State) : Prop where
  /-- The list of written bytes is in canonical form (log 4). -/
  mem_wf : Memory.wf s.buf = true
  /-- `BUF` has addresses 0 to `BUF_BYTES − 1` only (20_memory.md R60). -/
  mem_range : ∀ c ∈ s.buf, c.1 < s.cfg.bufBytes
  /-- 00_scope.md R8. -/
  cfg_legal : s.cfg.legal = true
  /-- `ERRCODE` is 0 exactly when `ERR` is 0 (10_state.md R31). -/
  code_zero : s.errCode = 0#4 ↔ s.err = false
  /-- Codes 8 to 15 are never produced (60_exceptions.md R243). -/
  code_le : s.errCode.toNat ≤ 7
  /-- `ERR` cannot be 1 while `BUSY` is 1 (10_state.md R32). -/
  busy_no_err : s.busy = true → s.err = false
  /-- `LEN` never exceeds 65536 (10_state.md R29). -/
  len_le : s.len.toNat ≤ 65536
  /-- LT, EQ, GT: none before the first `CMP`, exactly one after it (10_state.md R28). -/
  flags_one :
    (s.flags.lt, s.flags.eq, s.flags.gt) ∈
      [(false, false, false), (true, false, false), (false, true, false), (false, false, true)]
  /-- Without a key the key words still hold their reset value (10_state.md R26, R36). -/
  key_reset : s.keyValid = false → s.k = ⟨0#32, 0#32, 0#32, 0#32⟩

/-- Every general register is as before. -/
def regsKept (s t : State) : Prop := ∀ r, readQ r t = readQ r s

/-- Every general register but `qd` is as before. -/
def regsKeptBut (qd : QReg) (s t : State) : Prop := ∀ r, r ≠ qd → readQ r t = readQ r s

/-- The key schedule is as before. -/
def keyKept (s t : State) : Prop := t.k = s.k ∧ t.keyValid = s.keyValid

/-- Every byte of `BUF` reads as before. -/
def memKept (s t : State) : Prop := ∀ a, bufByte t a = bufByte s a

/-- Every byte of `BUF` outside `a .. a+n−1` reads as before. -/
def memKeptBut (a n : Nat) (s t : State) : Prop := ∀ x, (x < a ∨ a + n ≤ x) → bufByte t x = bufByte s x

/-- What no command changes: `CMDR`, `HZ`, the parameters, the count of resets, the turns and the host's record. -/
def portKept (s t : State) : Prop :=
  t.cmdr = s.cmdr ∧ t.hz = s.hz ∧ t.cfg = s.cfg ∧ t.resets = s.resets ∧ t.turns = s.turns ∧ t.answers = s.answers

/-- A successful completion (60_exceptions.md R241): `BUSY` is 0, the error latch and the port are as before. -/
def succeeded (s t : State) : Prop :=
  t.busy = false ∧ t.err = s.err ∧ t.errCode = s.errCode ∧ portKept s t

/-- The whole effect of a command that writes one register: `Q[qd] = v`, and otherwise only `BUSY` falls. -/
def writesOnlyQ (qd : QReg) (v : U128) (s t : State) : Prop :=
  succeeded s t ∧ readQ qd t = v ∧ regsKeptBut qd s t ∧ keyKept s t ∧ t.flags = s.flags ∧ t.len = s.len ∧ memKept s t

/-- The whole effect of `raise Err(code)` (60_exceptions.md R244): `ERR` 1, `ERRCODE` the code, `BUSY` 0, everything
else as before. -/
def failed (code : BitVec 4) (s t : State) : Prop :=
  t.err = true ∧ t.errCode = code ∧ t.busy = false ∧ portKept s t ∧ regsKept s t ∧ keyKept s t ∧
    t.flags = s.flags ∧ t.len = s.len ∧ memKept s t

/-- Every register holds 0 (10_state.md R36). -/
def registersZero (s : State) : Prop :=
  (∀ r, readQ r s = 0#128) ∧ s.k = ⟨0#32, 0#32, 0#32, 0#32⟩ ∧ s.keyValid = false ∧
    s.flags = ⟨false, false, false, false, false⟩ ∧ s.len = 0#32 ∧ s.cmdr = 0#32 ∧ s.busy = false ∧ s.err = false ∧
    s.hz = false ∧ s.errCode = 0#4

/-- The big-endian word of the four bytes from `a` (20_memory.md R61). -/
def wordOf (byte : Nat → U8) (a : Nat) : U32 := byte a ++ byte (a + 1) ++ byte (a + 2) ++ byte (a + 3)

/-- Byte `k` of the 16-byte form of a Uint128: `v[127−8k : 120−8k]` (20_memory.md R62). -/
def byteOf128 (v : U128) (k : Nat) : U8 := v.extractLsb' (120 - 8 * k) 8

/-- Byte `k` of the 8-byte form of a cipher block (20_memory.md R63). -/
def byteOfBlock (v : U32 × U32) (k : Nat) : U8 := (v.1 ++ v.2).extractLsb' (56 - 8 * k) 8

/-- The engine is to move next (10_state.md R20; log 1), and `ts` are the turns after it. -/
def engineNext (s : State) (ts : List Turn) : Prop := s.turns = .engine :: ts ∨ (s.turns = [] ∧ ts = [])

/-- This step completes the command `i`. -/
def completes (i : Instr) (s : State) : Prop :=
  s.busy = true ∧ decode s.cmdr = .command i ∧ ∃ ts, engineNext s ts

/-- `n` steps (70_reset_and_hazards.md R278: a run is a sequence of host actions and completions). -/
def runSteps : Nat → State → Host.Outcome State Fault Refusal
  | 0, s => .next s
  | n + 1, s =>
    match step s with
    | .next t => runSteps n t
    | .fault r => .fault r
    | .refused r => .refused r

/-- This step is the host action `act`. -/
def hostActs (act : HostAction) (s : State) : Prop := ∃ ts, s.turns = .host act :: ts

end Sys2Proof.Machine
end

