-- ==== Sys2Proof/Certificates/Slice0/Obligations.lean ====
section
/-! DEFINITION. The statements about TE128, from the numbered rules of spec/. Each docstring names the rule or says
which choice of the model (a log entry) a clause rests on. -/

open Sys2Proof Sys2Proof.Machine

/-! ### Reset -/

/-- 10_state.md R36. Of `BUF` the rule says that it is unspecified, so nothing is said of it here. -/
def Obligations.ResetStateHasEveryRegisterZero : Prop :=
  registersZero State.reset ∧ statusWord State.reset = 0#32 ∧ flagsWord State.reset.flags = 0#32

/-- 70_reset_and_hazards.md R270: in any state, a command in flight included. That the parameters, the turns and the
host's record stay, and that the bytes of `BUF` are the free bytes of a new reset number, are the model's choices
(log 3, log 14). -/
def Obligations.ResetActionInAnyState : Prop :=
  ∀ (s : State) (ts : List Turn), s.turns = .host .reset :: ts →
    ∃ t, step s = .next t ∧ registersZero t ∧ t.cfg = s.cfg ∧ t.turns = ts ∧ t.answers = s.answers ∧
      t.resets ≠ s.resets ∧ ∀ a, bufByte t a = Config.resetByte t.resets a

/-! ### Decoding and encoding -/

/-- 30_encoding.md R102 (its example words) and words written out from R91 and R96. That the last word is illegal is R97;
that of its several causes the decoder names the unlisted `op` first is the model's choice (DEDUCED, log 10). -/
def Obligations.SpecCommandWordsDecode : Prop :=
  decode 0x126C0000#32 = .command (.add .q1 .q2 .q3) ∧ decode 0x4300000C#32 = .command (.enc 12#16) ∧
    decode 0x11800003#32 = .command (.ldc .q2 3#16) ∧ decode 0x21240000#32 = .command (.powmod .q0 .q2 .q1) ∧
    decode 0x00000000#32 = .command .nop ∧ decode 0x30400020#32 = .command (.ldq .q1 32#16) ∧
    decode 0xFFFFFFFF#32 = .illegal .unknownOp

/-- 30_encoding.md R102: decoding inverts encoding, every operand at every value the encoding admits. -/
def Obligations.DecodeOfEncodeIsTheCommand : Prop :=
  ∀ i : Instr, wellFormed i = true → decode (encode i) = .command i

/-- 30_encoding.md R102: each legal word is the encoding of the command it decodes to. -/
def Obligations.EncodeOfDecodeIsTheWord : Prop :=
  ∀ (c : U32) (i : Instr), decode c = .command i → encode i = c ∧ wellFormed i = true

/-- 30_encoding.md R96: a word is a command exactly when `c AND mask = match` for its row, and no word matches two
rows. -/
def Obligations.DecodeFollowsTheOpcodeTable : Prop :=
  ∀ c : U32,
    (∀ i, decode c = .command i ↔ ∃ r ∈ opcodeTable, c &&& r.mask = r.pattern ∧ i = build r.op (fieldsOf c)) ∧
    (∀ r₁ ∈ opcodeTable, ∀ r₂ ∈ opcodeTable, c &&& r₁.mask = r₁.pattern → c &&& r₂.mask = r₂.pattern → r₁ = r₂)

/-- 30_encoding.md R97 with the `uses` column of R96: the illegal words are those with an unlisted `op`, a non-zero
`z`, a non-zero unused field or an `LDC` id above 3; each is accepted at issue, and the engine's completion step ends it
with `E_ILLEGAL` (1), changing nothing else. -/
def Obligations.IllegalWordsAndTheirEnd : Prop :=
  ∀ c : U32,
    ((∃ why, decode c = .illegal why) ↔
      (fieldsOf c).op ∉ [0x00#8, 0x10#8, 0x11#8, 0x12#8, 0x13#8, 0x14#8, 0x15#8, 0x16#8, 0x17#8, 0x20#8, 0x21#8,
        0x30#8, 0x31#8, 0x40#8, 0x41#8, 0x42#8, 0x43#8, 0x44#8, 0x45#8, 0x46#8] ∨
      (fieldsOf c).z ≠ 0#2 ∨
      ((fieldsOf c).op ∉ [0x10#8, 0x11#8, 0x12#8, 0x13#8, 0x14#8, 0x15#8, 0x20#8, 0x21#8, 0x30#8] ∧
        (fieldsOf c).qd ≠ 0#2) ∨
      ((fieldsOf c).op ∉ [0x10#8, 0x12#8, 0x13#8, 0x14#8, 0x15#8, 0x16#8, 0x17#8, 0x20#8, 0x21#8, 0x31#8, 0x40#8] ∧
        (fieldsOf c).qa ≠ 0#2) ∨
      ((fieldsOf c).op ∉ [0x12#8, 0x13#8, 0x16#8, 0x20#8, 0x21#8] ∧ (fieldsOf c).qb ≠ 0#2) ∨
      ((fieldsOf c).op ∉ [0x11#8, 0x30#8, 0x31#8, 0x41#8, 0x42#8, 0x43#8, 0x44#8, 0x45#8, 0x46#8] ∧
        (fieldsOf c).imm ≠ 0#16) ∨
      ((fieldsOf c).op = 0x11#8 ∧ 3 < (fieldsOf c).imm.toNat)) ∧
    ((∃ why, decode c = .illegal why) → ∀ s : State,
      (s.cmdr = c → ∃ t, completion s = .next t ∧ failed 1#4 s t) ∧
      (s.busy = false → s.err = false → hostWrite cmdAddr c s = { s with cmdr := c, busy := true }))

/-! ### The step -/

/-- 60_exceptions.md R241. With a command in flight the engine's step is `exec` of the decoded command; with none the
engine has no step, and only its turn passes. Its completion step itself, whatever the turns, is `exec` of the decoded
command (the list of turns is the model's, log 1; the idle step, log 7). -/
def Obligations.StepRunsTheDecodedCommand : Prop :=
  ∀ (s : State) (ts : List Turn), engineNext s ts →
    (∀ i, s.busy = true → decode s.cmdr = .command i →
      step s = exec i { s with turns := ts } ∧ completion s = exec i s) ∧
    (s.busy = true → step s = completion { s with turns := ts }) ∧
    (s.busy = false → step s = .next { s with turns := ts })

/-- 10_state.md R20: a host's turn is its action and nothing else (the turns and the record of what reads returned are
the model's, log 1 and log 2). -/
def Obligations.StepPerformsTheHostAction : Prop :=
  ∀ (s : State) (ts : List Turn),
    (∀ a d, s.turns = .host (.write a d) :: ts → step s = .next (hostWrite a d { s with turns := ts })) ∧
    (∀ a, s.turns = .host (.read a) :: ts →
      step s = .next
        { (hostRead a { s with turns := ts }).2 with
          answers := (hostRead a { s with turns := ts }).1 :: s.answers }) ∧
    (s.turns = .host .reset :: ts → step s = .next (resetAction { s with turns := ts }))

/-- 60_exceptions.md R242, R248: no trap and no stop, from any state. Which step it is comes from the turns (the model's
choice, log 1), and an engine's turn with `BUSY` 0, where R241 gives the engine no step at all, answers the state with
its turn taken off (the model's choice, log 7). -/
def Obligations.EveryStepAnswersAState : Prop := ∀ s : State, ∃ t, step s = .next t

/-- 60_exceptions.md R244, with R241: a completion lowers `BUSY`, touches none of `CMDR`, `HZ` and the host's side, and
either sets the latch with one of the codes 2 to 7 (1 for an ill-formed `LDC`) and changes nothing else, or leaves the
latch as it was. -/
def Obligations.ErrorsArePrecise : Prop :=
  ∀ (i : Instr) (s : State), ∃ t, exec i s = .next t ∧ t.busy = false ∧ portKept s t ∧
    ((t.err = s.err ∧ t.errCode = s.errCode) ∨
      ∃ code, failed code s t ∧ code.toNat ≤ 7 ∧ (if wellFormed i then 2 else 1) ≤ code.toNat)

/-! ### The host's side -/

/-- 60_exceptions.md R240, its three cases, for every word `w`. -/
def Obligations.IssueDoesOneOfThreeThings : Prop :=
  ∀ (s : State) (a : HostAddr) (w : U32), a.toNat * 4 = 0x0000 →
    (s.busy = true → hostWrite a w s = { s with hz := true }) ∧
    (s.busy = false → s.err = true → hostWrite a w s = s) ∧
    (s.busy = false → s.err = false → hostWrite a w s = { s with cmdr := w, busy := true })

/-- 20_memory.md R73: while busy, an access to anything but `STATUS` (byte address 4) only sets `HZ`, and a read
returns 0. -/
def Obligations.BusyAccessOnlySetsHz : Prop :=
  ∀ (s : State) (a : HostAddr), s.busy = true → a.toNat * 4 ≠ 0x0004 →
    hostRead a s = (0#32, { s with hz := true }) ∧ ∀ d, hostWrite a d s = { s with hz := true }

/-- 10_state.md R32: what a write to `STATUS` does, busy or not, and nothing else. -/
def Obligations.StatusWriteClearsLatches : Prop :=
  ∀ (s : State) (a : HostAddr) (d : U32), a.toNat * 4 = 0x0004 →
    hostWrite a d s =
      { s with
        err := if d.getLsbD 1 = true ∧ s.busy = false then false else s.err
        errCode := if d.getLsbD 1 = true ∧ s.busy = false then 0#4 else s.errCode
        hz := if d.getLsbD 2 = true then false else s.hz }

/-- 20_memory.md R71, every branch of its pseudocode; `b` is the byte address. -/
def Obligations.HostReadFollowsTheAddressMap : Prop :=
  ∀ (s : State) (a : HostAddr), s.busy = false ∨ a.toNat * 4 = 0x0004 →
    let b := a.toNat * 4
    let v := (hostRead a s).1
    (hostRead a s).2 = s ∧
    (b = 0x0000 → v = s.cmdr) ∧
    (b = 0x0004 → v.toNat = 16 * s.errCode.toNat + 8 * s.keyValid.toNat + 4 * s.hz.toNat + 2 * s.err.toNat +
      s.busy.toNat) ∧
    (b = 0x0008 → v.toNat = 16 * s.flags.gt.toNat + 8 * s.flags.eq.toNat + 4 * s.flags.lt.toNat +
      2 * s.flags.odd.toNat + s.flags.z.toNat) ∧
    (b = 0x000C → v = s.len) ∧
    (∀ (r : QReg) (w : Nat), w < 4 → b = 0x0010 + 16 * (regBits r).toNat + 4 * w →
      v.toNat = (readQ r s).toNat / 2 ^ (32 * w) % 2 ^ 32) ∧
    (0x1000 ≤ b → b < 0x1000 + s.cfg.bufBytes → v = wordOf (bufByte s) (b - 0x1000)) ∧
    ((0x0050 ≤ b ∧ b < 0x1000) ∨ 0x1000 + s.cfg.bufBytes ≤ b → v = 0#32)

/-- 20_memory.md R72, every branch of its pseudocode (an issue attempt as in 60_exceptions.md R240 (b), (c), a write to
`STATUS` as in 10_state.md R32), with the word order of R23 and the lane order of R74. -/
def Obligations.HostWriteFollowsTheAddressMap : Prop :=
  ∀ (s : State) (a : HostAddr) (d : U32), s.busy = false ∨ a.toNat * 4 = 0x0004 →
    let b := a.toNat * 4
    let t := hostWrite a d s
    (b = 0x0000 → t = if s.err then s else { s with cmdr := d, busy := true }) ∧
    (b = 0x0004 → t =
      { s with
        err := s.err && !(d.getLsbD 1 && !s.busy)
        errCode := if d.getLsbD 1 && !s.busy then 0#4 else s.errCode
        hz := s.hz && !d.getLsbD 2 }) ∧
    (∀ (r : QReg) (w : BitVec 2), b = 0x0010 + 16 * (regBits r).toNat + 4 * w.toNat →
      ∃ v, t = writeQ r v s ∧ word32 v w = d ∧ ∀ w', w' ≠ w → word32 v w' = word32 (readQ r s) w') ∧
    (0x1000 ≤ b → b < 0x1000 + s.cfg.bufBytes →
      ∃ m, t = { s with buf := m } ∧ wordOf (bufByte t) (b - 0x1000) = d ∧ memKeptBut (b - 0x1000) 4 s t) ∧
    (b = 0x0008 ∨ b = 0x000C ∨ (0x0050 ≤ b ∧ b < 0x1000) ∨ 0x1000 + s.cfg.bufBytes ≤ b → t = s)

/-- 30_encoding.md R100 and 10_state.md R23: the four writes of `SETQ` load the register and change nothing else (the
turns are the model's, log 1). -/
def Obligations.SetqLoadsTheRegister : Prop :=
  ∀ (s : State) (r : QReg) (v : U128) (ts : List Turn), s.busy = false → s.turns = setQTurns r v ++ ts →
    runSteps 4 s = .next (writeQ r v { s with turns := ts })

/-- 60_exceptions.md R249 with R240 (b): while `ERR = 1` a sequence of issued words of any length has no effect at all
(the turns are the model's, log 1). -/
def Obligations.LatchedErrorDropsEveryCommand : Prop :=
  ∀ (ws : List U32) (s : State) (ts : List Turn), s.busy = false → s.err = true →
    s.turns = ws.flatMap issueTurns ++ ts →
    runSteps (2 * ws.length) s = .next { s with turns := ts }

/-- 60_exceptions.md R240 (c), R241 and 70_reset_and_hazards.md R276: whatever number of polls of `STATUS` falls
between issue and completion, each poll shows `BUSY = 1` and the completion is the command's effect on the state at
issue (the turns and the record of answers are the model's, log 1 and log 2). -/
def Obligations.IssuedCommandCompletesAfterAnyPolling : Prop :=
  ∀ (n : Nat) (w : U32) (i : Instr) (s : State) (ts : List Turn), s.busy = false → s.err = false →
    decode w = .command i →
    s.turns = .host (.write cmdAddr w) :: (List.replicate n (.host (.read statusAddr)) ++ .engine :: ts) →
    runSteps (n + 2) s = exec i
      { s with
        cmdr := w, busy := true, turns := ts
        answers := List.replicate n (statusWord { s with busy := true }) ++ s.answers } ∧
    (statusWord { s with busy := true }).getLsbD 0 = true

/-- 10_state.md R25, R26: whatever the key words hold, a host action answers the host the same and leaves the same state
but for the key words, and only `Reset` changes those (turns and record: the model's, logs 1, 2). For `Reset` the clause
says that both runs have the same `BUF` after it: they count the same resets and so read the same free bytes, which is
the model's choice (DESIGN CHOICE, log 3); the spec leaves `BUF` unspecified there (R271). -/
def Obligations.HostCannotSeeTheKey : Prop :=
  ∀ (s : State) (k' : KeyFile) (act : HostAction), hostActs act s →
    ∃ t t', step s = .next t ∧ step { s with k := k' } = .next t' ∧ t'.answers = t.answers ∧ { t' with k := t.k } = t ∧
      (act ≠ .reset → t.k = s.k ∧ t'.k = k')

/-! ### Invariants and whole-machine rules -/

/-- The invariant at reset (10_state.md R36; the parameters are the default of 00_scope.md R8, log 5). -/
def Obligations.ResetStateMeetsTheInvariant : Prop := Inv State.reset

/-- Every step, of the host or the engine, from every state that meets the invariant (Safety.lean: 10_state.md R26,
R28, R29, R31, R32; 20_memory.md R60; 60_exceptions.md R243; the canonical form of memory is the model's, log 4). -/
def Obligations.EveryStepKeepsTheInvariant : Prop :=
  ∀ s t : State, Inv s → step s = .next t → Inv t

/-- 10_state.md R25, R26: only `SETKEY` and `Reset` change the key schedule or `KEYVALID`, and only `Reset` clears
`KEYVALID`. -/
def Obligations.OnlySetkeyAndResetChangeTheKey : Prop :=
  ∀ s t : State, step s = .next t →
    (t.k ≠ s.k ∨ t.keyValid ≠ s.keyValid → hostActs .reset s ∨ ∃ qa, completes (.setkey qa) s) ∧
    (s.keyValid = true → t.keyValid = false → hostActs .reset s)

/-- 10_state.md R28, R29: `FLAGS` changes only by `CMP`, `TEST` and `Reset`; `LEN` only by `ENC`, `DEC`, `ELEN`, `DLEN`
and `Reset`. -/
def Obligations.OnlyNamedCommandsChangeFlagsAndLen : Prop :=
  ∀ s t : State, step s = .next t →
    (t.flags ≠ s.flags →
      hostActs .reset s ∨ (∃ qa qb, completes (.cmp qa qb) s) ∨ ∃ qa, completes (.test qa) s) ∧
    (t.len ≠ s.len →
      hostActs .reset s ∨ ∃ n, completes (.enc n) s ∨ completes (.dec n) s ∨ completes (.elen n) s ∨ completes (.dlen n) s)

/-- 10_state.md R21 (the row of `BUF`), R33: a byte of `BUF` changes only by a host write to the window, `STQ`,
`ENCBLK`, `DECBLK`, `ENC`, `DEC` and `Reset`. -/
def Obligations.OnlyNamedActionsChangeTheBuffer : Prop :=
  ∀ s t : State, step s = .next t → (∃ a, bufByte t a ≠ bufByte s a) →
    hostActs .reset s ∨
    (∃ a d, hostActs (.write a d) s ∧ s.busy = false ∧ 0x1000 ≤ a.toNat * 4 ∧ a.toNat * 4 < 0x1000 + s.cfg.bufBytes) ∨
    (∃ qa off, completes (.stq qa off) s) ∨
    ∃ n, completes (.encblk n) s ∨ completes (.decblk n) s ∨ completes (.enc n) s ∨ completes (.dec n) s

/-! ### The extended-precision unit -/

/-- 40_uint128_arith.md R139. -/
def Obligations.NopOnlyCompletes : Prop :=
  (∀ s : State, exec .nop s = .next { s with busy := false }) ∧ encode .nop = 0#32 ∧
    ∀ c i, decode c = .command i → (fieldsOf c).op = 0x00#8 → c = 0#32 ∧ i = .nop

/-- 40_uint128_arith.md R130. -/
def Obligations.MovCopiesTheRegister : Prop :=
  ∀ (qd qa : QReg) (s : State), (fieldsOf (encode (.mov qd qa))).op = 0x10#8 ∧
    ∃ t, exec (.mov qd qa) s = .next t ∧ writesOnlyQ qd (readQ qa s) s t

/-- 40_uint128_arith.md R131: the four constants, and `E_ILLEGAL` (1) above id 3. -/
def Obligations.LdcLoadsTheConstant : Prop :=
  ∀ (qd : QReg) (id : U16) (s : State), (fieldsOf (encode (.ldc qd id))).op = 0x11#8 ∧
    ∃ t, exec (.ldc qd id) s = .next t ∧
      (id = 0#16 → writesOnlyQ qd 0#128 s t) ∧
      (id = 1#16 → writesOnlyQ qd (BitVec.ofNat 128 (2 ^ 128 - 159)) s t) ∧
      (id = 2#16 → writesOnlyQ qd 159#128 s t) ∧
      (id = 3#16 → writesOnlyQ qd 5#128 s t) ∧
      (3 < id.toNat → failed 1#4 s t)

/-- 40_uint128_arith.md R132 with the closed form of R120: the sum modulo 2^128, no flag, no error. -/
def Obligations.AddIsTheSumModulo : Prop :=
  ∀ (qd qa qb : QReg) (s : State), (fieldsOf (encode (.add qd qa qb))).op = 0x12#8 ∧
    ∃ t, exec (.add qd qa qb) s = .next t ∧
      writesOnlyQ qd (BitVec.ofNat 128 (((readQ qa s).toNat + (readQ qb s).toNat) % 2 ^ 128)) s t

/-- 40_uint128_arith.md R133 with the closed form of R121: the difference, plus 2^128 where it is negative. -/
def Obligations.SubIsTheDifferenceModulo : Prop :=
  ∀ (qd qa qb : QReg) (s : State), (fieldsOf (encode (.sub qd qa qb))).op = 0x13#8 ∧
    ∃ t, exec (.sub qd qa qb) s = .next t ∧
      writesOnlyQ qd
        (BitVec.ofNat 128
          (if (readQ qb s).toNat ≤ (readQ qa s).toNat then (readQ qa s).toNat - (readQ qb s).toNat
           else (readQ qa s).toNat + 2 ^ 128 - (readQ qb s).toNat)) s t

/-- 40_uint128_arith.md R134 with the closed form of R122. -/
def Obligations.Shl1DoublesModulo : Prop :=
  ∀ (qd qa : QReg) (s : State), (fieldsOf (encode (.shl1 qd qa))).op = 0x14#8 ∧
    ∃ t, exec (.shl1 qd qa) s = .next t ∧ writesOnlyQ qd (BitVec.ofNat 128 (2 * (readQ qa s).toNat % 2 ^ 128)) s t

/-- 40_uint128_arith.md R135 with the closed form of R123. -/
def Obligations.Shr1HalvesRoundingDown : Prop :=
  ∀ (qd qa : QReg) (s : State), (fieldsOf (encode (.shr1 qd qa))).op = 0x15#8 ∧
    ∃ t, exec (.shr1 qd qa) s = .next t ∧ writesOnlyQ qd (BitVec.ofNat 128 ((readQ qa s).toNat / 2)) s t

/-- 40_uint128_arith.md R136 with R124: the unsigned comparison, one of LT, EQ, GT, all else as before. -/
def Obligations.CmpSetsOneOfThreeFlags : Prop :=
  ∀ (qa qb : QReg) (s : State), (fieldsOf (encode (.cmp qa qb))).op = 0x16#8 ∧
    ∃ t, exec (.cmp qa qb) s = .next t ∧ succeeded s t ∧
      t.flags =
        { s.flags with
          lt := decide ((readQ qa s).toNat < (readQ qb s).toNat)
          eq := decide ((readQ qa s).toNat = (readQ qb s).toNat)
          gt := decide ((readQ qb s).toNat < (readQ qa s).toNat) } ∧
      regsKept s t ∧ keyKept s t ∧ t.len = s.len ∧ memKept s t

/-- 40_uint128_arith.md R137 with R125, R126. -/
def Obligations.TestSetsZeroAndOdd : Prop :=
  ∀ (qa : QReg) (s : State), (fieldsOf (encode (.test qa))).op = 0x17#8 ∧
    ∃ t, exec (.test qa) s = .next t ∧ succeeded s t ∧
      t.flags =
        { s.flags with z := decide ((readQ qa s).toNat = 0), odd := decide ((readQ qa s).toNat % 2 = 1) } ∧
      regsKept s t ∧ keyKept s t ∧ t.len = s.len ∧ memKept s t

/-- 40_uint128_arith.md R127: the laws and the all-ones instances. -/
def Obligations.Uint128Laws : Prop :=
  (∀ a b : U128, add128 (sub128 a b) b = a) ∧
    (∀ a : U128, (shl1 (shr1 a)).toNat = a.toNat - a.toNat % 2) ∧
    (∀ a : U128, (shr1 (shl1 a)).toNat = a.toNat % 2 ^ 127) ∧
    (∀ a b : U128, add128 a b = add128 b a) ∧
    (∀ a b c : U128, add128 (add128 a b) c = add128 a (add128 b c)) ∧
    (∀ a : U128, sub128 a a = 0#128) ∧
    (∀ a : U128, a.toNat = 2 ^ 128 - 1 →
      (shl1 a).toNat = 2 ^ 128 - 2 ∧ (shr1 a).toNat = 2 ^ 127 - 1 ∧ (shl1 (shr1 a)).toNat = 2 ^ 128 - 2 ∧
        (shr1 (shl1 a)).toNat = 2 ^ 127 - 1)

/-! ### The modular unit -/

/-- 42_modfield.md R171, its first sentence: what the loop holds after `k` iterations. -/
def Obligations.MulModLoopInvariant : Prop :=
  ∀ (a b : U128) (k : Nat), a.toNat < 2 ^ 128 - 159 →
    let m := Nat.repeat mulModBody k ⟨0#128, a, b⟩
    m.a.toNat = a.toNat * 2 ^ k % (2 ^ 128 - 159) ∧
      m.r.toNat = a.toNat * (b.toNat % 2 ^ k) % (2 ^ 128 - 159) ∧ m.b.toNat = b.toNat / 2 ^ k

/-- 42_modfield.md R171: the double-and-add scan computes the product modulo P, for every multiplier. -/
def Obligations.MulModIsTheProductModuloP : Prop :=
  ∀ a b : U128, a.toNat < 2 ^ 128 - 159 → (mulMod a b).toNat = a.toNat * b.toNat % (2 ^ 128 - 159)

/-- 42_modfield.md R172: why adding 159 is the right correction, in its two sub-cases. -/
def Obligations.DoublingCorrectionIsRight : Prop :=
  ∀ a : U128, a.toNat < 2 ^ 128 - 159 → 2 ^ 128 - 159 ≤ 2 * a.toNat →
    (add128 (shl1 a) 159#128).toNat = 2 * a.toNat - (2 ^ 128 - 159) ∧
      ((2 ^ 127 ≤ a.toNat ∧ (shl1 a).toNat = 2 * a.toNat - 2 ^ 128 ∧ (shl1 a).toNat + 159 < 2 ^ 128) ∨
        (2 ^ 127 - 79 ≤ a.toNat ∧ a.toNat ≤ 2 ^ 127 - 1 ∧ (shl1 a).toNat = 2 * a.toNat ∧
          2 ^ 128 ≤ (shl1 a).toNat + 159))

/-- 42_modfield.md R175: the power modulo P for every base and every non-zero exponent. -/
def Obligations.PowModIsThePowerModuloP : Prop :=
  ∀ a b : U128, b ≠ 0#128 →
    (powMod a b).toNat = (a.toNat % (2 ^ 128 - 159)) ^ b.toNat % (2 ^ 128 - 159)

/-- 42_modfield.md R174: the iterative form gives the same value as the recursive one. -/
def Obligations.PowModIterativeFormAgrees : Prop :=
  ∀ a b : U128, b ≠ 0#128 → powModIter a b = powMod a b

/-- 42_modfield.md R176 (the product by R171): `E_OPERAND` (2) and the old destination when the multiplicand is not
below P. -/
def Obligations.MulmodCommand : Prop :=
  ∀ (qd qa qb : QReg) (s : State), (fieldsOf (encode (.mulmod qd qa qb))).op = 0x20#8 ∧
    ((readQ qa s).toNat < 2 ^ 128 - 159 →
      ∃ t, exec (.mulmod qd qa qb) s = .next t ∧
        writesOnlyQ qd (BitVec.ofNat 128 ((readQ qa s).toNat * (readQ qb s).toNat % (2 ^ 128 - 159))) s t) ∧
    (2 ^ 128 - 159 ≤ (readQ qa s).toNat → ∃ t, exec (.mulmod qd qa qb) s = .next t ∧ failed 2#4 s t)

/-- 42_modfield.md R177 (the power by R175): `E_EXPZERO` (3) and the old destination when the exponent is 0. -/
def Obligations.PowmodCommand : Prop :=
  ∀ (qd qa qb : QReg) (s : State), (fieldsOf (encode (.powmod qd qa qb))).op = 0x21#8 ∧
    (readQ qb s ≠ 0#128 →
      ∃ t, exec (.powmod qd qa qb) s = .next t ∧
        writesOnlyQ qd
          (BitVec.ofNat 128 (((readQ qa s).toNat % (2 ^ 128 - 159)) ^ (readQ qb s).toNat % (2 ^ 128 - 159))) s t) ∧
    (readQ qb s = 0#128 → ∃ t, exec (.powmod qd qa qb) s = .next t ∧ failed 3#4 s t)

/-- 42_modfield.md R178, the source's testable properties of the unit. -/
def Obligations.ModularLaws : Prop :=
  (∀ a b : U128, a.toNat < 2 ^ 128 - 159 → b.toNat < 2 ^ 128 - 159 →
      (mulMod a b).toNat < 2 ^ 128 - 159 ∧ mulMod a b = mulMod b a) ∧
    (∀ a e₁ e₂ : U128, a.toNat < 2 ^ 128 - 159 → 1 ≤ e₁.toNat → 1 ≤ e₂.toNat → e₁.toNat + e₂.toNat < 2 ^ 128 →
      powMod a (e₁ + e₂) = mulMod (powMod a e₁) (powMod a e₂)) ∧
    (∀ a b : U128, 1 ≤ a.toNat → 1 ≤ b.toNat →
      powMod (powMod 5#128 a) b = powMod (powMod 5#128 b) a)

/-- 43_keyexchange.md R195 with R190, R191, R193: two key pairs generated from any non-zero draws give both parties
the same secret, `G^(a·b) mod P`. -/
def Obligations.KeyExchangeAgrees : Prop :=
  ∀ a b : U128, a ≠ 0#128 → b ≠ 0#128 →
    ∃ (A B : KeyPair) (x : U128), generateKeyPair a = some A ∧ generateKeyPair b = some B ∧ A.generated ∧
      B.generated ∧ A.privateKey = a ∧ B.privateKey = b ∧ deriveSecret A.privateKey B.publicKey = some x ∧
      deriveSecret B.privateKey A.publicKey = some x ∧ x.toNat = 5 ^ (a.toNat * b.toNat) % (2 ^ 128 - 159)

/-! ### Register and buffer transfer -/

/-- 41_uint128_serial.md R152: the 16 bytes, big-endian, at any offset in range; `E_RANGE` (4) otherwise. -/
def Obligations.LdqLoadsSixteenBytes : Prop :=
  ∀ (qd : QReg) (off : U16) (s : State), (fieldsOf (encode (.ldq qd off))).op = 0x30#8 ∧
    (off.toNat + 16 ≤ s.cfg.bufBytes →
      ∃ t v, exec (.ldq qd off) s = .next t ∧ writesOnlyQ qd v s t ∧
        ∀ k, k < 16 → byteOf128 v k = bufByte s (off.toNat + k)) ∧
    (s.cfg.bufBytes < off.toNat + 16 → ∃ t, exec (.ldq qd off) s = .next t ∧ failed 4#4 s t)

/-- 41_uint128_serial.md R153: exactly the 16 bytes from the offset are written; `E_RANGE` (4) otherwise. -/
def Obligations.StqStoresSixteenBytes : Prop :=
  ∀ (qa : QReg) (off : U16) (s : State), (fieldsOf (encode (.stq qa off))).op = 0x31#8 ∧
    (off.toNat + 16 ≤ s.cfg.bufBytes →
      ∃ t, exec (.stq qa off) s = .next t ∧ succeeded s t ∧
        (∀ k, k < 16 → bufByte t (off.toNat + k) = byteOf128 (readQ qa s) k) ∧ memKeptBut off.toNat 16 s t ∧
        regsKept s t ∧ keyKept s t ∧ t.flags = s.flags ∧ t.len = s.len) ∧
    (s.cfg.bufBytes < off.toNat + 16 → ∃ t, exec (.stq qa off) s = .next t ∧ failed 4#4 s t)

/-- 41_uint128_serial.md R154: `STQ` then `LDQ` at one offset restores the value, `LDQ` then `STQ` the bytes. -/
def Obligations.StoreAndLoadAreInverse : Prop :=
  ∀ (q q' : QReg) (off : U16) (s : State), off.toNat + 16 ≤ s.cfg.bufBytes →
    (∃ t u, exec (.stq q off) s = .next t ∧ exec (.ldq q' off) t = .next u ∧ readQ q' u = readQ q s) ∧
    (∃ t u, exec (.ldq q off) s = .next t ∧ exec (.stq q off) t = .next u ∧ ∀ a, bufByte u a = bufByte s a)

/-! ### The cipher unit -/

/-- 44_blockcipher.md R206 with R200: all four key words, `KEYVALID`, and nothing else. -/
def Obligations.SetkeyDerivesTheKeyWords : Prop :=
  ∀ (qa : QReg) (s : State), (fieldsOf (encode (.setkey qa))).op = 0x40#8 ∧
    ∃ t, exec (.setkey qa) s = .next t ∧ succeeded s t ∧ t.keyValid = true ∧
      t.k.k0.toNat = (readQ qa s).toNat % 2 ^ 32 ∧ t.k.k1.toNat = (readQ qa s).toNat / 2 ^ 32 % 2 ^ 32 ∧
      t.k.k2.toNat = (readQ qa s).toNat / 2 ^ 64 % 2 ^ 32 ∧ t.k.k3.toNat = (readQ qa s).toNat / 2 ^ 96 ∧
      regsKept s t ∧ t.flags = s.flags ∧ t.len = s.len ∧ memKept s t

/-- 44_blockcipher.md R215, first sentence: decryption inverts encryption and encryption inverts decryption, for every
key. -/
def Obligations.BlockFunctionsAreInverse : Prop :=
  ∀ (k : KeyFile) (v0 v1 : U32),
    decBlock k (encBlock k v0 v1).1 (encBlock k v0 v1).2 = (v0, v1) ∧
      encBlock k (decBlock k v0 v1).1 (decBlock k v0 v1).2 = (v0, v1)

/-- 44_blockcipher.md R216 with R203: the running sum and both key indices depend on the round number only. After
round `i + 1` the sum is `(i+1)·delta`, the `v0` half uses `sum AND 3` before the increment, the `v1` half
`(sum >> 11) AND 3` after it; decryption starts from the last sum and comes back to 0. -/
def Obligations.RoundScheduleDependsOnTheRoundOnly : Prop :=
  ∀ (k : KeyFile) (v0 v1 : U32) (i : Nat), i < 32 →
    let x := encRounds k i ⟨v0, v1, 0#32⟩
    let sum := BitVec.ofNat 32 ((i + 1) * 0x9E3779B9)
    x.sum.toNat = i * 0x9E3779B9 % 2 ^ 32 ∧ (encRound k x).sum = sum ∧
      (encRound k x).v0 = x.v0 + (mix x.v1 ^^^ (x.sum + keyWord k (BitVec.ofNat 2 (i % 4)))) ∧
      (encRound k x).v1 =
        x.v1 + (mix (encRound k x).v0 ^^^ (sum + keyWord k (BitVec.ofNat 2
          ([3, 2, 1, 0, 0, 3, 2, 1, 0, 0, 3, 2, 1, 1, 0, 3, 2, 1, 1, 0, 3, 2, 1, 1, 0, 3, 2, 2, 1, 0, 3, 2].getD i 0)))) ∧
      (decRounds k 32 ⟨v0, v1, 0xC6EF3720#32⟩).sum = 0#32

/-- 44_blockcipher.md R208: `E_NOKEY` (5), then `E_RANGE` (4), else exactly the 8 bytes at the offset become the
encryption of the block that stood there. -/
def Obligations.EncblkTransformsOneBlock : Prop :=
  ∀ (off : U16) (s : State), (fieldsOf (encode (.encblk off))).op = 0x41#8 ∧
    (s.keyValid = false → ∃ t, exec (.encblk off) s = .next t ∧ failed 5#4 s t) ∧
    (s.keyValid = true → s.cfg.bufBytes < off.toNat + 8 → ∃ t, exec (.encblk off) s = .next t ∧ failed 4#4 s t) ∧
    (s.keyValid = true → off.toNat + 8 ≤ s.cfg.bufBytes →
      ∃ t, exec (.encblk off) s = .next t ∧ succeeded s t ∧
        (wordOf (bufByte t) off.toNat, wordOf (bufByte t) (off.toNat + 4)) =
          encBlock s.k (wordOf (bufByte s) off.toNat) (wordOf (bufByte s) (off.toNat + 4)) ∧
        memKeptBut off.toNat 8 s t ∧ regsKept s t ∧ keyKept s t ∧ t.flags = s.flags ∧ t.len = s.len)

/-- 44_blockcipher.md R209: as R208 with `DecBlock`. -/
def Obligations.DecblkTransformsOneBlock : Prop :=
  ∀ (off : U16) (s : State), (fieldsOf (encode (.decblk off))).op = 0x42#8 ∧
    (s.keyValid = false → ∃ t, exec (.decblk off) s = .next t ∧ failed 5#4 s t) ∧
    (s.keyValid = true → s.cfg.bufBytes < off.toNat + 8 → ∃ t, exec (.decblk off) s = .next t ∧ failed 4#4 s t) ∧
    (s.keyValid = true → off.toNat + 8 ≤ s.cfg.bufBytes →
      ∃ t, exec (.decblk off) s = .next t ∧ succeeded s t ∧
        (wordOf (bufByte t) off.toNat, wordOf (bufByte t) (off.toNat + 4)) =
          decBlock s.k (wordOf (bufByte s) off.toNat) (wordOf (bufByte s) (off.toNat + 4)) ∧
        memKeptBut off.toNat 8 s t ∧ regsKept s t ∧ keyKept s t ∧ t.flags = s.flags ∧ t.len = s.len)

/-- 44_blockcipher.md R210 with R204: every full block, then the padded last block, in place; `LEN`; nothing beyond
`EncryptLength(n)`. Errors in the order of R207. -/
def Obligations.EncEncryptsThePaddedPrefix : Prop :=
  ∀ (len : U16) (s : State), (fieldsOf (encode (.enc len))).op = 0x43#8 ∧
    let n := len.toNat
    let last := 8 * (n / 8)
    let padded := fun a => if a < n then bufByte s a else BitVec.ofNat 8 (8 - n % 8)
    (s.keyValid = false → ∃ t, exec (.enc len) s = .next t ∧ failed 5#4 s t) ∧
    (s.keyValid = true → s.cfg.bufBytes < last + 8 → ∃ t, exec (.enc len) s = .next t ∧ failed 4#4 s t) ∧
    (s.keyValid = true → last + 8 ≤ s.cfg.bufBytes →
      ∃ t, exec (.enc len) s = .next t ∧ succeeded s t ∧ t.len.toNat = last + 8 ∧
        (∀ j, j ≤ n / 8 →
          (wordOf (bufByte t) (8 * j), wordOf (bufByte t) (8 * j + 4)) =
            encBlock s.k (wordOf padded (8 * j)) (wordOf padded (8 * j + 4))) ∧
        memKeptBut 0 (last + 8) s t ∧ regsKept s t ∧ keyKept s t ∧ t.flags = s.flags)

/-- 44_blockcipher.md R211: the last block is decrypted first and its final byte is the pad length; all other blocks
in place, then the bytes before the padding; the pad bytes are not written; `LEN = n − padLen`. Errors in the order of
R207. -/
def Obligations.DecDecryptsAndRemovesThePadding : Prop :=
  ∀ (len : U16) (s : State), (fieldsOf (encode (.dec len))).op = 0x44#8 ∧
    let n := len.toNat
    let scratch := decBlock s.k (wordOf (bufByte s) (n - 8)) (wordOf (bufByte s) (n - 4))
    let pad := (byteOfBlock scratch 7).toNat
    (s.keyValid = false → ∃ t, exec (.dec len) s = .next t ∧ failed 5#4 s t) ∧
    (s.keyValid = true → n = 0 ∨ n % 8 ≠ 0 → ∃ t, exec (.dec len) s = .next t ∧ failed 6#4 s t) ∧
    (s.keyValid = true → 0 < n → n % 8 = 0 → s.cfg.bufBytes < n →
      ∃ t, exec (.dec len) s = .next t ∧ failed 4#4 s t) ∧
    (s.keyValid = true → 0 < n → n % 8 = 0 → n ≤ s.cfg.bufBytes → pad < 1 ∨ 8 < pad →
      ∃ t, exec (.dec len) s = .next t ∧ failed 7#4 s t) ∧
    (s.keyValid = true → 0 < n → n % 8 = 0 → n ≤ s.cfg.bufBytes → 1 ≤ pad → pad ≤ 8 →
      ∃ t, exec (.dec len) s = .next t ∧ succeeded s t ∧ t.len.toNat = n - pad ∧
        (∀ j, j < n / 8 - 1 →
          (wordOf (bufByte t) (8 * j), wordOf (bufByte t) (8 * j + 4)) =
            decBlock s.k (wordOf (bufByte s) (8 * j)) (wordOf (bufByte s) (8 * j + 4))) ∧
        (∀ x, x < 8 - pad → bufByte t (n - 8 + x) = byteOfBlock scratch x) ∧
        memKeptBut 0 (n - pad) s t ∧ regsKept s t ∧ keyKept s t ∧ t.flags = s.flags)

/-- 44_blockcipher.md R215, the round trip: with a key, `ENC #n` then `DEC #LEN` succeeds, gives `LEN = n` and restores
the plaintext (legal parameters make `LEN` a 16-bit operand: 00_scope.md R8). -/
def Obligations.EncThenDecRestoresThePlaintext : Prop :=
  ∀ (len : U16) (s : State), s.keyValid = true → s.cfg.legal = true → len.toNat / 8 * 8 + 8 ≤ s.cfg.bufBytes →
    ∃ t u, exec (.enc len) s = .next t ∧ exec (.dec (BitVec.ofNat 16 t.len.toNat)) t = .next u ∧
      t.len.toNat < 2 ^ 16 ∧ u.err = s.err ∧ u.errCode = s.errCode ∧ u.len.toNat = len.toNat ∧
      ∀ a, a < len.toNat → bufByte u a = bufByte s a

/-- 44_blockcipher.md R212, R213 with R204, R205: `LEN` is the length function's value, with no check and no other
effect; `EncryptLength(n)` is a positive multiple of 8 and exceeds `n` by 1 to 8. -/
def Obligations.LengthCommandsWriteLen : Prop :=
  ∀ (len : U16) (s : State),
    ((fieldsOf (encode (.elen len))).op = 0x45#8 ∧ ∃ t, exec (.elen len) s = .next t ∧ succeeded s t ∧
      t.len.toNat = len.toNat / 8 * 8 + 8 ∧ t.len.toNat % 8 = 0 ∧ len.toNat + 1 ≤ t.len.toNat ∧
      t.len.toNat ≤ len.toNat + 8 ∧ regsKept s t ∧ keyKept s t ∧ t.flags = s.flags ∧ memKept s t) ∧
    ((fieldsOf (encode (.dlen len))).op = 0x46#8 ∧ ∃ t, exec (.dlen len) s = .next t ∧ succeeded s t ∧
      t.len.toNat = len.toNat ∧ regsKept s t ∧ keyKept s t ∧ t.flags = s.flags ∧ memKept s t)

/-! ### The host functions -/

/-- 41_uint128_serial.md R156 to R162: each text or byte form has its fixed length and decodes to the value it came
from (the base64 alphabet is PRESUMED, log 11). -/
def Obligations.CodecsRestoreTheValue : Prop :=
  ∀ v : U128,
    (toBytes v).length = 16 ∧ (∀ k, k < 16 → (toBytes v)[k]? = some (byteOf128 v k)) ∧ fromBytes (toBytes v) = v ∧
      (toHex v).length = 32 ∧ fromHex (toHex v) = v ∧
      (toBase64 v).length = 24 ∧ ∀ p, fromBase64 p (toBase64 v) = v

/-- 41_uint128_serial.md R157, R159, R163: an overlong input loses its front, a short one is zero-extended, and one
examined character that is no hexadecimal digit makes the whole result zero. -/
def Obligations.CodecsTruncateExtendAndDegrade : Prop :=
  (∀ front bs : List U8, bs.length = 16 → fromBytes (front ++ bs) = fromBytes bs) ∧
    (∀ bs : List U8, bs.length ≤ 16 → fromBytes bs = fromBytes (List.replicate (16 - bs.length) 0#8 ++ bs)) ∧
    (∀ front t : List Char, t.length = 32 → fromHex (front ++ t) = fromHex t) ∧
    (∀ t : List Char, t.length ≤ 32 → (∃ c ∈ t, hexValue c = none) → fromHex t = 0#128)
end

