-- ==== Sys2Proof/Laws/State.lean ====
section
/-! SUPPORT. One lemma per field per update of State, so that no later proof unfolds a record update. -/

namespace Sys2Proof.Machine

/-! ### writeQ -/

@[simp] theorem writeQ_q (r : QReg) (v : U128) (s : State) : (writeQ r v s).q = setQ r v s.q := rfl
@[simp] theorem writeQ_k (r : QReg) (v : U128) (s : State) : (writeQ r v s).k = s.k := rfl
@[simp] theorem writeQ_keyValid (r : QReg) (v : U128) (s : State) : (writeQ r v s).keyValid = s.keyValid := rfl
@[simp] theorem writeQ_flags (r : QReg) (v : U128) (s : State) : (writeQ r v s).flags = s.flags := rfl
@[simp] theorem writeQ_len (r : QReg) (v : U128) (s : State) : (writeQ r v s).len = s.len := rfl
@[simp] theorem writeQ_cmdr (r : QReg) (v : U128) (s : State) : (writeQ r v s).cmdr = s.cmdr := rfl
@[simp] theorem writeQ_busy (r : QReg) (v : U128) (s : State) : (writeQ r v s).busy = s.busy := rfl
@[simp] theorem writeQ_err (r : QReg) (v : U128) (s : State) : (writeQ r v s).err = s.err := rfl
@[simp] theorem writeQ_hz (r : QReg) (v : U128) (s : State) : (writeQ r v s).hz = s.hz := rfl
@[simp] theorem writeQ_errCode (r : QReg) (v : U128) (s : State) : (writeQ r v s).errCode = s.errCode := rfl
@[simp] theorem writeQ_buf (r : QReg) (v : U128) (s : State) : (writeQ r v s).buf = s.buf := rfl
@[simp] theorem writeQ_cfg (r : QReg) (v : U128) (s : State) : (writeQ r v s).cfg = s.cfg := rfl
@[simp] theorem writeQ_resets (r : QReg) (v : U128) (s : State) : (writeQ r v s).resets = s.resets := rfl
@[simp] theorem writeQ_turns (r : QReg) (v : U128) (s : State) : (writeQ r v s).turns = s.turns := rfl
@[simp] theorem writeQ_answers (r : QReg) (v : U128) (s : State) : (writeQ r v s).answers = s.answers := rfl

/-! ### bufWrite32 -/

@[simp] theorem bufWrite32_q (a : Nat) (v : U32) (s : State) : (bufWrite32 a v s).q = s.q := by simp only [bufWrite32]
@[simp] theorem bufWrite32_k (a : Nat) (v : U32) (s : State) : (bufWrite32 a v s).k = s.k := by simp only [bufWrite32]
@[simp] theorem bufWrite32_keyValid (a : Nat) (v : U32) (s : State) : (bufWrite32 a v s).keyValid = s.keyValid := by simp only [bufWrite32]
@[simp] theorem bufWrite32_flags (a : Nat) (v : U32) (s : State) : (bufWrite32 a v s).flags = s.flags := by simp only [bufWrite32]
@[simp] theorem bufWrite32_len (a : Nat) (v : U32) (s : State) : (bufWrite32 a v s).len = s.len := by simp only [bufWrite32]
@[simp] theorem bufWrite32_cmdr (a : Nat) (v : U32) (s : State) : (bufWrite32 a v s).cmdr = s.cmdr := by simp only [bufWrite32]
@[simp] theorem bufWrite32_busy (a : Nat) (v : U32) (s : State) : (bufWrite32 a v s).busy = s.busy := by simp only [bufWrite32]
@[simp] theorem bufWrite32_err (a : Nat) (v : U32) (s : State) : (bufWrite32 a v s).err = s.err := by simp only [bufWrite32]
@[simp] theorem bufWrite32_hz (a : Nat) (v : U32) (s : State) : (bufWrite32 a v s).hz = s.hz := by simp only [bufWrite32]
@[simp] theorem bufWrite32_errCode (a : Nat) (v : U32) (s : State) : (bufWrite32 a v s).errCode = s.errCode := by simp only [bufWrite32]
@[simp] theorem bufWrite32_buf (a : Nat) (v : U32) (s : State) : (bufWrite32 a v s).buf = memWrite s.buf a 4 v.toNat := by simp only [bufWrite32]
@[simp] theorem bufWrite32_cfg (a : Nat) (v : U32) (s : State) : (bufWrite32 a v s).cfg = s.cfg := by simp only [bufWrite32]
@[simp] theorem bufWrite32_resets (a : Nat) (v : U32) (s : State) : (bufWrite32 a v s).resets = s.resets := by simp only [bufWrite32]
@[simp] theorem bufWrite32_turns (a : Nat) (v : U32) (s : State) : (bufWrite32 a v s).turns = s.turns := by simp only [bufWrite32]
@[simp] theorem bufWrite32_answers (a : Nat) (v : U32) (s : State) : (bufWrite32 a v s).answers = s.answers := by simp only [bufWrite32]

/-! ### bufWrite128 -/

@[simp] theorem bufWrite128_q (a : Nat) (v : U128) (s : State) : (bufWrite128 a v s).q = s.q := by simp only [bufWrite128]
@[simp] theorem bufWrite128_k (a : Nat) (v : U128) (s : State) : (bufWrite128 a v s).k = s.k := by simp only [bufWrite128]
@[simp] theorem bufWrite128_keyValid (a : Nat) (v : U128) (s : State) : (bufWrite128 a v s).keyValid = s.keyValid := by simp only [bufWrite128]
@[simp] theorem bufWrite128_flags (a : Nat) (v : U128) (s : State) : (bufWrite128 a v s).flags = s.flags := by simp only [bufWrite128]
@[simp] theorem bufWrite128_len (a : Nat) (v : U128) (s : State) : (bufWrite128 a v s).len = s.len := by simp only [bufWrite128]
@[simp] theorem bufWrite128_cmdr (a : Nat) (v : U128) (s : State) : (bufWrite128 a v s).cmdr = s.cmdr := by simp only [bufWrite128]
@[simp] theorem bufWrite128_busy (a : Nat) (v : U128) (s : State) : (bufWrite128 a v s).busy = s.busy := by simp only [bufWrite128]
@[simp] theorem bufWrite128_err (a : Nat) (v : U128) (s : State) : (bufWrite128 a v s).err = s.err := by simp only [bufWrite128]
@[simp] theorem bufWrite128_hz (a : Nat) (v : U128) (s : State) : (bufWrite128 a v s).hz = s.hz := by simp only [bufWrite128]
@[simp] theorem bufWrite128_errCode (a : Nat) (v : U128) (s : State) : (bufWrite128 a v s).errCode = s.errCode := by simp only [bufWrite128]
@[simp] theorem bufWrite128_buf (a : Nat) (v : U128) (s : State) : (bufWrite128 a v s).buf = memWrite s.buf a 16 v.toNat := by simp only [bufWrite128]
@[simp] theorem bufWrite128_cfg (a : Nat) (v : U128) (s : State) : (bufWrite128 a v s).cfg = s.cfg := by simp only [bufWrite128]
@[simp] theorem bufWrite128_resets (a : Nat) (v : U128) (s : State) : (bufWrite128 a v s).resets = s.resets := by simp only [bufWrite128]
@[simp] theorem bufWrite128_turns (a : Nat) (v : U128) (s : State) : (bufWrite128 a v s).turns = s.turns := by simp only [bufWrite128]
@[simp] theorem bufWrite128_answers (a : Nat) (v : U128) (s : State) : (bufWrite128 a v s).answers = s.answers := by simp only [bufWrite128]

/-! ### clearErr -/

@[simp] theorem clearErr_q (s : State) : (clearErr s).q = s.q := rfl
@[simp] theorem clearErr_k (s : State) : (clearErr s).k = s.k := rfl
@[simp] theorem clearErr_keyValid (s : State) : (clearErr s).keyValid = s.keyValid := rfl
@[simp] theorem clearErr_flags (s : State) : (clearErr s).flags = s.flags := rfl
@[simp] theorem clearErr_len (s : State) : (clearErr s).len = s.len := rfl
@[simp] theorem clearErr_cmdr (s : State) : (clearErr s).cmdr = s.cmdr := rfl
@[simp] theorem clearErr_busy (s : State) : (clearErr s).busy = s.busy := rfl
@[simp] theorem clearErr_err (s : State) : (clearErr s).err = false := rfl
@[simp] theorem clearErr_hz (s : State) : (clearErr s).hz = s.hz := rfl
@[simp] theorem clearErr_errCode (s : State) : (clearErr s).errCode = 0#4 := rfl
@[simp] theorem clearErr_buf (s : State) : (clearErr s).buf = s.buf := rfl
@[simp] theorem clearErr_cfg (s : State) : (clearErr s).cfg = s.cfg := rfl
@[simp] theorem clearErr_resets (s : State) : (clearErr s).resets = s.resets := rfl
@[simp] theorem clearErr_turns (s : State) : (clearErr s).turns = s.turns := rfl
@[simp] theorem clearErr_answers (s : State) : (clearErr s).answers = s.answers := rfl

/-! ### setHz -/

@[simp] theorem setHz_q (s : State) : (setHz s).q = s.q := rfl
@[simp] theorem setHz_k (s : State) : (setHz s).k = s.k := rfl
@[simp] theorem setHz_keyValid (s : State) : (setHz s).keyValid = s.keyValid := rfl
@[simp] theorem setHz_flags (s : State) : (setHz s).flags = s.flags := rfl
@[simp] theorem setHz_len (s : State) : (setHz s).len = s.len := rfl
@[simp] theorem setHz_cmdr (s : State) : (setHz s).cmdr = s.cmdr := rfl
@[simp] theorem setHz_busy (s : State) : (setHz s).busy = s.busy := rfl
@[simp] theorem setHz_err (s : State) : (setHz s).err = s.err := rfl
@[simp] theorem setHz_hz (s : State) : (setHz s).hz = true := rfl
@[simp] theorem setHz_errCode (s : State) : (setHz s).errCode = s.errCode := rfl
@[simp] theorem setHz_buf (s : State) : (setHz s).buf = s.buf := rfl
@[simp] theorem setHz_cfg (s : State) : (setHz s).cfg = s.cfg := rfl
@[simp] theorem setHz_resets (s : State) : (setHz s).resets = s.resets := rfl
@[simp] theorem setHz_turns (s : State) : (setHz s).turns = s.turns := rfl
@[simp] theorem setHz_answers (s : State) : (setHz s).answers = s.answers := rfl

/-! ### resetAction -/

@[simp] theorem resetAction_q (s : State) : (resetAction s).q = ⟨0#128, 0#128, 0#128, 0#128⟩ := rfl
@[simp] theorem resetAction_k (s : State) : (resetAction s).k = ⟨0#32, 0#32, 0#32, 0#32⟩ := rfl
@[simp] theorem resetAction_keyValid (s : State) : (resetAction s).keyValid = false := rfl
@[simp] theorem resetAction_flags (s : State) : (resetAction s).flags = ⟨false, false, false, false, false⟩ := rfl
@[simp] theorem resetAction_len (s : State) : (resetAction s).len = 0#32 := rfl
@[simp] theorem resetAction_cmdr (s : State) : (resetAction s).cmdr = 0#32 := rfl
@[simp] theorem resetAction_busy (s : State) : (resetAction s).busy = false := rfl
@[simp] theorem resetAction_err (s : State) : (resetAction s).err = false := rfl
@[simp] theorem resetAction_hz (s : State) : (resetAction s).hz = false := rfl
@[simp] theorem resetAction_errCode (s : State) : (resetAction s).errCode = 0#4 := rfl
@[simp] theorem resetAction_buf (s : State) : (resetAction s).buf = [] := rfl
@[simp] theorem resetAction_cfg (s : State) : (resetAction s).cfg = s.cfg := rfl
@[simp] theorem resetAction_resets (s : State) : (resetAction s).resets = s.resets + 1 := rfl
@[simp] theorem resetAction_turns (s : State) : (resetAction s).turns = s.turns := rfl
@[simp] theorem resetAction_answers (s : State) : (resetAction s).answers = s.answers := rfl

/-! ### withFetchWord -/

@[simp] theorem withFetchWord_q (s : State) (nbits w : Nat) : (s.withFetchWord nbits w).q = s.q := rfl
@[simp] theorem withFetchWord_k (s : State) (nbits w : Nat) : (s.withFetchWord nbits w).k = s.k := rfl
@[simp] theorem withFetchWord_keyValid (s : State) (nbits w : Nat) : (s.withFetchWord nbits w).keyValid = s.keyValid := rfl
@[simp] theorem withFetchWord_flags (s : State) (nbits w : Nat) : (s.withFetchWord nbits w).flags = s.flags := rfl
@[simp] theorem withFetchWord_len (s : State) (nbits w : Nat) : (s.withFetchWord nbits w).len = s.len := rfl
@[simp] theorem withFetchWord_cmdr (s : State) (nbits w : Nat) : (s.withFetchWord nbits w).cmdr = tableWord nbits w := rfl
@[simp] theorem withFetchWord_busy (s : State) (nbits w : Nat) : (s.withFetchWord nbits w).busy = true := rfl
@[simp] theorem withFetchWord_err (s : State) (nbits w : Nat) : (s.withFetchWord nbits w).err = s.err := rfl
@[simp] theorem withFetchWord_hz (s : State) (nbits w : Nat) : (s.withFetchWord nbits w).hz = s.hz := rfl
@[simp] theorem withFetchWord_errCode (s : State) (nbits w : Nat) : (s.withFetchWord nbits w).errCode = s.errCode := rfl
@[simp] theorem withFetchWord_buf (s : State) (nbits w : Nat) : (s.withFetchWord nbits w).buf = s.buf := rfl
@[simp] theorem withFetchWord_cfg (s : State) (nbits w : Nat) : (s.withFetchWord nbits w).cfg = s.cfg := rfl
@[simp] theorem withFetchWord_resets (s : State) (nbits w : Nat) : (s.withFetchWord nbits w).resets = s.resets := rfl
@[simp] theorem withFetchWord_turns (s : State) (nbits w : Nat) : (s.withFetchWord nbits w).turns = .engine :: s.turns := rfl
@[simp] theorem withFetchWord_answers (s : State) (nbits w : Nat) : (s.withFetchWord nbits w).answers = s.answers := rfl

/-! ### Registers -/

@[simp] theorem readQ_writeQ_self (r : QReg) (v : U128) (s : State) : readQ r (writeQ r v s) = v := by
  cases r <;> rfl

theorem readQ_writeQ_of_ne {r r' : QReg} (h : r' ≠ r) (v : U128) (s : State) :
    readQ r' (writeQ r v s) = readQ r' s := by
  cases r <;> cases r' <;> first | rfl | exact absurd rfl h

/-- A register read depends on the register file only. -/
theorem readQ_congr {s t : State} (h : t.q = s.q) (r : QReg) : readQ r t = readQ r s := by
  cases r <;> simp [readQ, h]

/-- A write of the value already there changes nothing. -/
theorem writeQ_readQ (r : QReg) (s : State) : writeQ r (readQ r s) s = s := by
  cases r <;> rfl

/-- A byte read depends on the list of written bytes and the reset number only. -/
theorem bufByte_congr {s t : State} (hb : t.buf = s.buf) (hr : t.resets = s.resets) (a : Nat) :
    bufByte t a = bufByte s a := by
  simp [bufByte, hb, hr]

end Sys2Proof.Machine
end

