-- ==== Sys2Proof/Laws/Memory.lean ====
section
/-! SUPPORT. The laws of `BUF`: read after write, what a write leaves alone, the canonical form and the address range
that every memory operation keeps, and the byte order of words. -/

namespace Sys2Proof.Machine

/-! ### One byte -/

@[simp] theorem bufLookup_bufInsert_self (m : Memory) (a : Nat) (v : U8) : bufLookup (bufInsert m a v) a = some v := by
  induction m with
  | nil => simp [bufInsert, bufLookup]
  | cons c m ih =>
    obtain ⟨x, b⟩ := c
    simp only [bufInsert]
    split
    · simp [bufLookup]
    · split
      · simp [bufLookup]
      · next h => simp [bufLookup, h, ih]

theorem bufLookup_bufInsert_of_ne (m : Memory) {a x : Nat} (v : U8) (h : x ≠ a) :
    bufLookup (bufInsert m a v) x = bufLookup m x := by
  induction m with
  | nil => simp [bufInsert, bufLookup, h]
  | cons c m ih =>
    obtain ⟨y, b⟩ := c
    simp only [bufInsert]
    split
    · simp [bufLookup, h]
    · split
      · next hay => simp [bufLookup, ← hay, h]
      · simp [bufLookup, ih]

@[simp] theorem memByte_bufInsert_self (e : Nat) (m : Memory) (a : Nat) (v : U8) :
    memByte e (bufInsert m a v) a = v := by
  simp [memByte]

theorem memByte_bufInsert_of_ne (e : Nat) (m : Memory) {a x : Nat} (v : U8) (h : x ≠ a) :
    memByte e (bufInsert m a v) x = memByte e m x := by
  simp [memByte, bufLookup_bufInsert_of_ne m v h]

/-! ### Consecutive bytes -/

/-- A write of consecutive bytes leaves every other byte alone. -/
theorem memByte_bufInsertAll_outside (e : Nat) (bs : List U8) :
    ∀ (m : Memory) (a x : Nat), x < a ∨ a + bs.length ≤ x → memByte e (bufInsertAll m a bs) x = memByte e m x := by
  induction bs with
  | nil => intros; rfl
  | cons b bs ih =>
    intro m a x h
    simp only [List.length_cons] at h
    rw [bufInsertAll, ih _ _ _ (by omega), memByte_bufInsert_of_ne _ _ _ (by omega)]

/-- Byte `k` of what was written reads back. -/
theorem memByte_bufInsertAll_inside (e : Nat) (bs : List U8) :
    ∀ (m : Memory) (a k : Nat) (hk : k < bs.length), memByte e (bufInsertAll m a bs) (a + k) = bs[k] := by
  induction bs with
  | nil => intro _ _ k hk; simp at hk
  | cons b bs ih =>
    intro m a k hk
    cases k with
    | zero =>
      rw [bufInsertAll, memByte_bufInsertAll_outside _ _ _ _ _ (by omega)]
      simp
    | succ k =>
      have := ih (bufInsert m a b) (a + 1) k (by simpa using hk)
      rw [bufInsertAll, show a + (k + 1) = a + 1 + k by omega, this]
      simp

@[simp] theorem beBytes_length (n v : Nat) : (beBytes n v).length = n := by
  induction n with
  | zero => rfl
  | succ n ih => simp [beBytes, ih]

/-- Byte `k` of `n` big-endian bytes (00_scope.md R11). -/
theorem beBytes_getElem (n v k : Nat) (h : k < (beBytes n v).length) :
    (beBytes n v)[k] = BitVec.ofNat 8 (v >>> (8 * (n - 1 - k))) := by
  induction n generalizing k with
  | zero => simp [beBytes] at h
  | succ n ih =>
    cases k with
    | zero => simp [beBytes]
    | succ k =>
      simp only [beBytes, List.getElem_cons_succ]
      rw [ih k (by simpa [beBytes] using h)]
      congr 3
      omega

/-- `MemWrite` leaves every byte outside `a .. a+n−1` alone. -/
theorem memByte_memWrite_outside (e : Nat) (m : Memory) (a n v x : Nat) (h : x < a ∨ a + n ≤ x) :
    memByte e (memWrite m a n v) x = memByte e m x :=
  memByte_bufInsertAll_outside e _ m a x (by simpa using h)

/-- `MemWrite` stores byte `k` of the value at `a + k` (00_scope.md R11). -/
theorem memByte_memWrite_inside (e : Nat) (m : Memory) (a n v k : Nat) (h : k < n) :
    memByte e (memWrite m a n v) (a + k) = BitVec.ofNat 8 (v >>> (8 * (n - 1 - k))) := by
  rw [memWrite, memByte_bufInsertAll_inside e _ m a k (by simpa using h), beBytes_getElem]

/-! ### Reading -/

@[simp] theorem memBytes_length (e : Nat) (m : Memory) (a n : Nat) : (memBytes e m a n).length = n := by
  induction n generalizing a with
  | zero => rfl
  | succ n ih => simp [memBytes, ih]

theorem memBytes_getElem (e : Nat) (m : Memory) (a n k : Nat) (h : k < (memBytes e m a n).length) :
    (memBytes e m a n)[k] = memByte e m (a + k) := by
  induction n generalizing a k with
  | zero => simp [memBytes] at h
  | succ n ih =>
    cases k with
    | zero => simp [memBytes]
    | succ k =>
      simp only [memBytes, List.getElem_cons_succ]
      rw [ih (a + 1) k (by simpa [memBytes] using h)]
      congr 1
      omega

/-- Two memories that agree on the bytes read give the same bytes. -/
theorem memBytes_congr (e : Nat) (m m' : Memory) (a n : Nat)
    (h : ∀ k, k < n → memByte e m' (a + k) = memByte e m (a + k)) : memBytes e m' a n = memBytes e m a n := by
  induction n generalizing a with
  | zero => rfl
  | succ n ih =>
    simp only [memBytes]
    rw [show memByte e m' a = memByte e m a by simpa using h 0 (by omega), ih (a + 1)]
    intro k hk
    have := h (k + 1) (by omega)
    rwa [show a + (k + 1) = a + 1 + k by omega] at this

theorem memRead_congr (e : Nat) (m m' : Memory) (a n : Nat)
    (h : ∀ k, k < n → memByte e m' (a + k) = memByte e m (a + k)) : memRead e m' a n = memRead e m a n := by
  rw [memRead, memRead, memBytes_congr e m m' a n h]

/-- The accumulator of the big-endian value. -/
theorem beValueFrom_eq (bs : List U8) : ∀ acc, beValueFrom acc bs = acc * 256 ^ bs.length + beValue bs := by
  induction bs with
  | nil => intro acc; simp [beValueFrom, beValue]
  | cons b bs ih =>
    intro acc
    rw [beValue, beValueFrom, ih, beValueFrom, ih (0 * 256 + b.toNat)]
    simp only [List.length_cons, Nat.pow_succ, Nat.add_mul, Nat.zero_mul, Nat.zero_add, Nat.mul_assoc, Nat.add_assoc,
      Nat.mul_comm]

@[simp] theorem beValue_nil : beValue [] = 0 := rfl

theorem beValue_cons (b : U8) (bs : List U8) : beValue (b :: bs) = b.toNat * 256 ^ bs.length + beValue bs := by
  rw [beValue, beValueFrom, beValueFrom_eq]
  simp

/-- The value of `n` bytes is below `256^n`. -/
theorem beValue_lt (bs : List U8) : beValue bs < 256 ^ bs.length := by
  induction bs with
  | nil => simp
  | cons b bs ih =>
    rw [beValue_cons, List.length_cons, Nat.pow_succ]
    have hb : b.toNat < 256 := b.isLt
    calc b.toNat * 256 ^ bs.length + beValue bs < b.toNat * 256 ^ bs.length + 256 ^ bs.length := by omega
      _ = (b.toNat + 1) * 256 ^ bs.length := by rw [Nat.add_mul, Nat.one_mul]
      _ ≤ 256 * 256 ^ bs.length := Nat.mul_le_mul_right _ (by omega)
      _ = 256 ^ bs.length * 256 := Nat.mul_comm _ _

/-- The big-endian bytes of a value have that value, modulo `256^n`. -/
theorem beValue_beBytes (n v : Nat) : beValue (beBytes n v) = v % 256 ^ n := by
  induction n with
  | zero => simp [beBytes, Nat.mod_one]
  | succ n ih =>
    rw [beBytes, beValue_cons, beBytes_length, ih, BitVec.toNat_ofNat, Nat.shiftRight_eq_div_pow]
    rw [show 2 ^ (8 * n) = 256 ^ n by rw [Nat.pow_mul], show (2 : Nat) ^ 8 = 256 by rfl, Nat.pow_succ,
      Nat.mod_mul, Nat.mul_comm]
    omega

/-- The big-endian bytes of the value of a byte string are that string. -/
theorem beBytes_beValue (bs : List U8) : beBytes bs.length (beValue bs) = bs := by
  induction bs with
  | nil => rfl
  | cons b bs ih =>
    rw [List.length_cons, beBytes, beValue_cons, Nat.shiftRight_eq_div_pow, Nat.pow_mul, show (2 : Nat) ^ 8 = 256 by rfl]
    have hlt := beValue_lt bs
    have hpos : 0 < 256 ^ bs.length := Nat.pos_of_ne_zero (by simp)
    congr 1
    · rw [Nat.mul_comm, Nat.mul_add_div hpos, Nat.div_eq_of_lt hlt, Nat.add_zero]
      simp
    · have hcong : ∀ n (x y : Nat), x % 256 ^ n = y % 256 ^ n → beBytes n x = beBytes n y := by
        intro n
        induction n with
        | zero => intros; rfl
        | succ n ihn =>
          intro x y h
          rw [beBytes, beBytes]
          congr 1
          · apply BitVec.eq_of_toNat_eq
            simp only [BitVec.toNat_ofNat, Nat.shiftRight_eq_div_pow, Nat.pow_mul, show (2 : Nat) ^ 8 = 256 by rfl]
            have hx := Nat.mod_mul_right_div_self x (256 ^ n) 256
            have hy := Nat.mod_mul_right_div_self y (256 ^ n) 256
            rw [Nat.pow_succ] at h
            rw [← hx, ← hy, h]
          · apply ihn
            rw [Nat.pow_succ] at h
            have hx := Nat.mod_mul_right_mod x (256 ^ n) 256
            have hy := Nat.mod_mul_right_mod y (256 ^ n) 256
            rw [← hx, ← hy, h]
      rw [hcong bs.length _ (beValue bs), ih]
      rw [Nat.mul_add_mod_self_right]

/-! ### The canonical form and the range -/

/-- Rising order below a head that is smaller than every address. -/
theorem Memory.wf_cons (c : Host.Cell) (m : Memory) :
    Memory.wf (c :: m) = true ↔ (∀ d ∈ m.head?, c.1 < d.1) ∧ Memory.wf m = true := by
  cases m with
  | nil => simp [Memory.wf]
  | cons d m => simp [Memory.wf]

theorem bufInsert_head? (m : Memory) (a : Nat) (v : U8) :
    ∀ d ∈ (bufInsert m a v).head?, d.1 = a ∨ ∃ c ∈ m.head?, d = c := by
  intro d hd
  cases m with
  | nil => left; simp [bufInsert] at hd; rw [← hd]
  | cons c m =>
    obtain ⟨x, b⟩ := c
    simp only [bufInsert] at hd
    split at hd
    · left; simp at hd; rw [← hd]
    · split at hd
      · left; simp at hd; rw [← hd]
      · right; exact ⟨(x, b), rfl, by simpa using hd.symm⟩

/-- Writing a byte keeps the canonical form. -/
theorem bufInsert_wf (m : Memory) (a : Nat) (v : U8) (h : Memory.wf m = true) : Memory.wf (bufInsert m a v) = true := by
  induction m with
  | nil => rfl
  | cons c m ih =>
    obtain ⟨x, b⟩ := c
    have hc := (Memory.wf_cons _ _).1 h
    simp only [bufInsert]
    split
    · next hlt => exact (Memory.wf_cons _ _).2 ⟨by simpa using hlt, h⟩
    · split
      · next _ heq => exact (Memory.wf_cons _ _).2 ⟨by simpa [heq] using hc.1, hc.2⟩
      · next hlt hne =>
        refine (Memory.wf_cons _ _).2 ⟨?_, ih hc.2⟩
        intro d hd
        rcases bufInsert_head? m a v d hd with h1 | ⟨c, hcm, rfl⟩
        · simp only [h1]; omega
        · exact hc.1 _ hcm

/-- Writing a byte lists no new address but its own. -/
theorem mem_bufInsert (m : Memory) (a : Nat) (v : U8) (c : Host.Cell) (h : c ∈ bufInsert m a v) :
    c = (a, v) ∨ c ∈ m := by
  induction m with
  | nil => left; simpa [bufInsert] using h
  | cons d m ih =>
    obtain ⟨x, b⟩ := d
    simp only [bufInsert] at h
    split at h
    · rcases List.mem_cons.1 h with h | h
      · exact .inl h
      · exact .inr h
    · split at h
      · rcases List.mem_cons.1 h with h | h
        · exact .inl h
        · exact .inr (List.mem_cons_of_mem _ h)
      · rcases List.mem_cons.1 h with h | h
        · exact .inr (h ▸ List.mem_cons_self)
        · rcases ih h with h | h
          · exact .inl h
          · exact .inr (List.mem_cons_of_mem _ h)

/-- The two facts about the list of written bytes that every step keeps: canonical form, addresses below `n`. -/
def memGood (n : Nat) (m : Memory) : Prop := Memory.wf m = true ∧ ∀ c ∈ m, c.1 < n

theorem bufInsert_good {n : Nat} {m : Memory} (a : Nat) (v : U8) (ha : a < n) (h : memGood n m) :
    memGood n (bufInsert m a v) := by
  refine ⟨bufInsert_wf m a v h.1, fun c hc => ?_⟩
  rcases mem_bufInsert m a v c hc with rfl | hc
  · exact ha
  · exact h.2 c hc

/-- Every memory operation keeps the canonical form and stays in the range it writes to. -/
theorem bufInsertAll_good {n : Nat} (bs : List U8) : ∀ {m : Memory} (a : Nat), a + bs.length ≤ n → memGood n m →
    memGood n (bufInsertAll m a bs) := by
  induction bs with
  | nil => intro m a _ h; exact h
  | cons b bs ih =>
    intro m a ha h
    simp only [List.length_cons] at ha
    exact ih (a + 1) (by omega) (bufInsert_good a b (by omega) h)

theorem memWrite_good {n : Nat} {m : Memory} (a k v : Nat) (ha : a + k ≤ n) (h : memGood n m) :
    memGood n (memWrite m a k v) :=
  bufInsertAll_good _ a (by simpa using ha) h

/-- The canonical form alone, with no bound on the addresses. -/
theorem bufInsertAll_wf (bs : List U8) : ∀ (m : Memory) (a : Nat), Memory.wf m = true →
    Memory.wf (bufInsertAll m a bs) = true := by
  induction bs with
  | nil => intro m a h; exact h
  | cons b bs ih => intro m a h; exact ih _ _ (bufInsert_wf m a b h)

theorem memWrite_wf (m : Memory) (a k v : Nat) (h : Memory.wf m = true) : Memory.wf (memWrite m a k v) = true :=
  bufInsertAll_wf _ m a h

end Sys2Proof.Machine
end

