-- ==== Sys2Proof/Laws/Blocks.lean ====
section
/-! SUPPORT. What the block transforms of the cipher unit leave alone in `BUF`, and that they keep its canonical form
and range. -/

namespace Sys2Proof.Machine

/-! ### Each definition over `BLOCK_BYTES` with its value, 8 (00_scope.md R7) -/

theorem encryptLength_eq (n : Nat) : encryptLength n = n / 8 * 8 + 8 := rfl

theorem transformBlocks_succ (f : U32 → U32 → U32 × U32) (e : Nat) (m : Memory) (n : Nat) :
    transformBlocks f e m (n + 1) = transformBlock f e (transformBlocks f e m n) (8 * n) := rfl

theorem padBlock_eq (m : Memory) (full r : Nat) :
    padBlock m full r = bufInsertAll m (8 * full + r) (List.replicate (8 - r) (BitVec.ofNat 8 (8 - r))) := rfl

theorem encryptBuf_eq (k : KeyFile) (e : Nat) (m : Memory) (n : Nat) :
    encryptBuf k e m n = transformBlock (encBlock k) e
      (padBlock (transformBlocks (encBlock k) e m (n / 8)) (n / 8) (n % 8)) (8 * (n / 8)) := by
  simp only [encryptBuf, Config.blockBytes]

theorem scratchBlock_eq (k : KeyFile) (e : Nat) (m : Memory) (n : Nat) :
    scratchBlock k e m n =
      (let v := decBlock k (BitVec.ofNat 32 (memRead e m (n - 8) 4)) (BitVec.ofNat 32 (memRead e m (n - 4) 4))
       beBytes 4 v.1.toNat ++ beBytes 4 v.2.toNat) := by
  simp only [scratchBlock, Config.blockBytes]

theorem decryptBuf_eq (k : KeyFile) (e : Nat) (m : Memory) (n : Nat) :
    decryptBuf k e m n = bufInsertAll (transformBlocks (decBlock k) e m (n / 8 - 1)) (n - 8)
      ((scratchBlock k e m n).take (8 - padLen (scratchBlock k e m n))) := by
  simp only [decryptBuf, Config.blockBytes]

/-! ### What stays -/

/-- A block transform leaves every byte outside its 8 bytes alone. -/
theorem memByte_transformBlock_outside (f : U32 → U32 → U32 × U32) (e : Nat) (m : Memory) (a x : Nat)
    (h : x < a ∨ a + 8 ≤ x) : memByte e (transformBlock f e m a) x = memByte e m x := by
  simp only [transformBlock]
  rw [memByte_memWrite_outside _ _ _ _ _ _ (by omega), memByte_memWrite_outside _ _ _ _ _ _ (by omega)]

/-- The first `n` blocks' transform leaves every byte from `8n` on alone. -/
theorem memByte_transformBlocks_outside (f : U32 → U32 → U32 × U32) (e : Nat) (m : Memory) (n x : Nat)
    (h : 8 * n ≤ x) : memByte e (transformBlocks f e m n) x = memByte e m x := by
  induction n with
  | zero => rfl
  | succ n ih =>
    rw [transformBlocks_succ, memByte_transformBlock_outside _ _ _ _ _ (by omega), ih (by omega)]

/-- Padding leaves every byte outside `8·full + r .. 8·full + 7` alone. -/
theorem memByte_padBlock_outside (e : Nat) (m : Memory) (full r x : Nat) (hr : r < 8)
    (h : x < 8 * full + r ∨ 8 * full + 8 ≤ x) : memByte e (padBlock m full r) x = memByte e m x := by
  rw [padBlock_eq, memByte_bufInsertAll_outside _ _ _ _ _ (by simp only [List.length_replicate]; omega)]

/-- Padding puts the count of pad bytes into each of them (44_blockcipher.md R210). -/
theorem memByte_padBlock_inside (e : Nat) (m : Memory) (full r x : Nat)
    (h : 8 * full + r ≤ x) (h' : x < 8 * full + 8) :
    memByte e (padBlock m full r) x = BitVec.ofNat 8 (8 - r) := by
  have := memByte_bufInsertAll_inside e (List.replicate (8 - r) (BitVec.ofNat 8 (8 - r))) m (8 * full + r)
    (x - (8 * full + r)) (by simp only [List.length_replicate]; omega)
  rw [show 8 * full + r + (x - (8 * full + r)) = x by omega] at this
  rw [padBlock_eq, this, List.getElem_replicate]

theorem transformBlock_good {n : Nat} {m : Memory} (f : U32 → U32 → U32 × U32) (e a : Nat) (ha : a + 8 ≤ n)
    (h : memGood n m) : memGood n (transformBlock f e m a) :=
  memWrite_good _ _ _ (by omega) (memWrite_good _ _ _ (by omega) h)

theorem transformBlocks_good {n : Nat} {m : Memory} (f : U32 → U32 → U32 × U32) (e k : Nat) (hk : 8 * k ≤ n)
    (h : memGood n m) : memGood n (transformBlocks f e m k) := by
  induction k with
  | zero => exact h
  | succ k ih =>
    rw [transformBlocks_succ]
    exact transformBlock_good f e _ (by omega) (ih (by omega))

theorem padBlock_good {n : Nat} {m : Memory} (full r : Nat) (hr : r < 8) (hn : 8 * full + 8 ≤ n) (h : memGood n m) :
    memGood n (padBlock m full r) := by
  rw [padBlock_eq]
  exact bufInsertAll_good _ _ (by simp only [List.length_replicate]; omega) h

theorem encryptBuf_good {n : Nat} {m : Memory} (k : KeyFile) (e l : Nat) (hl : encryptLength l ≤ n)
    (h : memGood n m) : memGood n (encryptBuf k e m l) := by
  rw [encryptLength_eq] at hl
  rw [encryptBuf_eq]
  exact transformBlock_good _ _ _ (by omega)
    (padBlock_good _ _ (by omega) (by omega) (transformBlocks_good _ _ _ (by omega) h))

@[simp] theorem scratchBlock_length (k : KeyFile) (e : Nat) (m : Memory) (n : Nat) :
    (scratchBlock k e m n).length = 8 := by
  simp [scratchBlock]

theorem decryptBuf_good {n : Nat} {m : Memory} (k : KeyFile) (e l : Nat) (h0 : 0 < l) (h8 : l % 8 = 0) (hl : l ≤ n)
    (h : memGood n m) : memGood n (decryptBuf k e m l) := by
  rw [decryptBuf_eq]
  refine bufInsertAll_good _ _ ?_ (transformBlocks_good _ _ _ (by omega) h)
  simp only [List.length_take, scratchBlock_length]
  omega

/-- The canonical form alone. -/
theorem transformBlock_wf (f : U32 → U32 → U32 × U32) (e : Nat) (m : Memory) (a : Nat) (h : Memory.wf m = true) :
    Memory.wf (transformBlock f e m a) = true :=
  memWrite_wf _ _ _ _ (memWrite_wf _ _ _ _ h)

theorem transformBlocks_wf (f : U32 → U32 → U32 × U32) (e : Nat) (m : Memory) (n : Nat) (h : Memory.wf m = true) :
    Memory.wf (transformBlocks f e m n) = true := by
  induction n with
  | zero => exact h
  | succ n ih => exact transformBlock_wf f e _ _ ih

theorem encryptBuf_wf (k : KeyFile) (e : Nat) (m : Memory) (n : Nat) (h : Memory.wf m = true) :
    Memory.wf (encryptBuf k e m n) = true :=
  transformBlock_wf _ _ _ _ (bufInsertAll_wf _ _ _ (transformBlocks_wf _ _ _ _ h))

theorem decryptBuf_wf (k : KeyFile) (e : Nat) (m : Memory) (n : Nat) (h : Memory.wf m = true) :
    Memory.wf (decryptBuf k e m n) = true :=
  bufInsertAll_wf _ _ _ (transformBlocks_wf _ _ _ _ h)

end Sys2Proof.Machine
end

