-- ==== Sys2Proof/Laws/Exec.lean ====
section
/-! SUPPORT. What each shared end of a command and each meaning with checks can answer, said once. -/

namespace Sys2Proof.Machine

/-- Success lowers `BUSY` and that is all it adds (60_exceptions.md R241). -/
theorem complete_next {s t : State} : complete s = .next t ↔ t = { s with busy := false } := by
  simp [complete, eq_comm]

/-- An error is a next state with the latch set and `BUSY` low (60_exceptions.md R244). -/
theorem raiseErr_next {e : ErrCode} {s t : State} :
    raiseErr e s = .next t ↔ t = { s with err := true, errCode := errBits e, busy := false } := by
  simp [raiseErr, eq_comm]

theorem errBits_ne_zero (e : ErrCode) : errBits e ≠ 0#4 := by cases e <;> decide

theorem errBits_le (e : ErrCode) : (errBits e).toNat ≤ 7 := by cases e <;> decide

theorem execLdc_some {qd : QReg} {id : U16} {c : U128} (h : constOf id = some c) (s : State) :
    execLdc qd id s = complete (writeQ qd c s) := by
  simp [execLdc, h]

theorem execLdc_none {qd : QReg} {id : U16} (h : constOf id = none) (s : State) :
    execLdc qd id s = raiseErr .illegal s := by
  simp [execLdc, h]

theorem execLdq_inside {off : U16} {s : State} (h : inRange s off.toNat 16 = true) (qd : QReg) :
    execLdq qd off s = complete (writeQ qd (bufRead128 s off.toNat) s) := by
  simp [execLdq, h]

theorem execLdq_outside {off : U16} {s : State} (h : inRange s off.toNat 16 = false) (qd : QReg) :
    execLdq qd off s = raiseErr .range s := by
  simp [execLdq, h]

theorem execStq_inside {off : U16} {s : State} (h : inRange s off.toNat 16 = true) (qa : QReg) :
    execStq qa off s = complete (bufWrite128 off.toNat (readQ qa s) s) := by
  simp [execStq, h]

theorem execStq_outside {off : U16} {s : State} (h : inRange s off.toNat 16 = false) (qa : QReg) :
    execStq qa off s = raiseErr .range s := by
  simp [execStq, h]

theorem execEncblk_ok {off : U16} {s : State} (hk : s.keyValid = true) (h : inRange s off.toNat 8 = true) :
    execEncblk off s = complete { s with buf := transformBlock (encBlock s.k) s.resets s.buf off.toNat } := by
  simp [execEncblk, Config.blockBytes, hk, h]

theorem execDecblk_ok {off : U16} {s : State} (hk : s.keyValid = true) (h : inRange s off.toNat 8 = true) :
    execDecblk off s = complete { s with buf := transformBlock (decBlock s.k) s.resets s.buf off.toNat } := by
  simp [execDecblk, Config.blockBytes, hk, h]

theorem execEnc_ok {len : U16} {s : State} (hk : s.keyValid = true)
    (h : inRange s 0 (encryptLength len.toNat) = true) :
    execEnc len s = complete
      { s with
        buf := encryptBuf s.k s.resets s.buf len.toNat
        len := BitVec.ofNat 32 (encryptLength len.toNat) } := by
  simp [execEnc, hk, h]

/-- `DEC` with `BLOCK_BYTES` at its value, 8 (00_scope.md R7). -/
theorem execDec_eq (len : U16) (s : State) :
    execDec len s =
      if !s.keyValid then raiseErr .noKey s
      else if len.toNat = 0 ∨ len.toNat % 8 ≠ 0 then raiseErr .badLen s
      else if !inRange s 0 len.toNat then raiseErr .range s
      else if padLen (scratchBlock s.k s.resets s.buf len.toNat) < 1 ∨
          8 < padLen (scratchBlock s.k s.resets s.buf len.toNat) then raiseErr .badPad s
      else complete
        { s with
          buf := decryptBuf s.k s.resets s.buf len.toNat
          len := BitVec.ofNat 32 (len.toNat - 8 + (8 - padLen (scratchBlock s.k s.resets s.buf len.toNat))) } := rfl

/-- The four errors of `DEC` in the order of 44_blockcipher.md R207, and its success. -/
theorem execDec_cases (len : U16) (s : State) :
    let n := len.toNat
    let pad := padLen (scratchBlock s.k s.resets s.buf n)
    (s.keyValid = false ∧ execDec len s = raiseErr .noKey s) ∨
      (s.keyValid = true ∧ (n = 0 ∨ n % 8 ≠ 0) ∧ execDec len s = raiseErr .badLen s) ∨
      (s.keyValid = true ∧ 0 < n ∧ n % 8 = 0 ∧ inRange s 0 n = false ∧ execDec len s = raiseErr .range s) ∨
      (s.keyValid = true ∧ 0 < n ∧ n % 8 = 0 ∧ inRange s 0 n = true ∧ (pad < 1 ∨ 8 < pad) ∧
        execDec len s = raiseErr .badPad s) ∨
      (s.keyValid = true ∧ 0 < n ∧ n % 8 = 0 ∧ inRange s 0 n = true ∧ 1 ≤ pad ∧ pad ≤ 8 ∧
        execDec len s = complete
          { s with
            buf := decryptBuf s.k s.resets s.buf n
            len := BitVec.ofNat 32 (n - 8 + (8 - pad)) }) := by
  simp only [execDec_eq]
  split
  · next h => exact .inl ⟨by simpa using h, rfl⟩
  · next hk =>
    have hk : s.keyValid = true := by simpa using hk
    split
    · next h => exact .inr (.inl ⟨hk, h, rfl⟩)
    · next h0 =>
      have h1 : 0 < len.toNat := by omega
      have h2 : len.toNat % 8 = 0 := by omega
      split
      · next hr => exact .inr (.inr (.inl ⟨hk, h1, h2, by simpa using hr, rfl⟩))
      · next hr =>
        have hr : inRange s 0 len.toNat = true := by simpa using hr
        split
        · next hp => exact .inr (.inr (.inr (.inl ⟨hk, h1, h2, hr, hp, rfl⟩)))
        · next hp => exact .inr (.inr (.inr (.inr ⟨hk, h1, h2, hr, by omega, by omega, rfl⟩)))

/-! ### The step -/

/-- One step and then `n` more. -/
theorem runSteps_succ {s t : State} (h : step s = .next t) (n : Nat) : runSteps (n + 1) s = runSteps n t := by
  simp [runSteps, h]

/-- One step alone. -/
theorem runSteps_one (s : State) : runSteps 1 s = step s := by
  cases h : step s <;> simp [runSteps, h]

/-- Everything a step can be: an idle pass, the completion of a legal word, the completion of an illegal word, or a
host action; `u` is the state with the turn taken off. -/
theorem step_cases (s : State) :
    ∃ u : State, (∃ ts, u = { s with turns := ts } ∧
      ((engineNext s ts ∧ s.busy = false ∧ step s = .next u) ∨
        (engineNext s ts ∧ s.busy = true ∧ ∃ i, decode s.cmdr = .command i ∧ step s = exec i u) ∨
        (engineNext s ts ∧ s.busy = true ∧ (∃ why, decode s.cmdr = .illegal why) ∧ step s = raiseErr .illegal u) ∨
        ∃ act, s.turns = .host act :: ts ∧ step s = .next (hostAct act u))) := by
  have engine : ∀ ts, engineNext s ts → step s = engineTurn { s with turns := ts } →
      (engineNext s ts ∧ s.busy = false ∧ step s = .next { s with turns := ts }) ∨
        (engineNext s ts ∧ s.busy = true ∧ ∃ i, decode s.cmdr = .command i ∧ step s = exec i { s with turns := ts }) ∨
        (engineNext s ts ∧ s.busy = true ∧ (∃ why, decode s.cmdr = .illegal why) ∧
          step s = raiseErr .illegal { s with turns := ts }) := by
    intro ts h hs
    cases hb : s.busy with
    | false => exact .inl ⟨h, rfl, by rw [hs]; simp [engineTurn, hb]⟩
    | true =>
      cases hd : decode s.cmdr with
      | command i => exact .inr (.inl ⟨h, rfl, i, rfl, by rw [hs]; simp [engineTurn, completion, fetch, hb, hd]⟩)
      | illegal why => exact .inr (.inr ⟨h, rfl, ⟨why, rfl⟩, by rw [hs]; simp [engineTurn, completion, fetch, hb, hd]⟩)
  cases ht : s.turns with
  | nil =>
    have hs : step s = engineTurn { s with turns := [] } := by
      simp only [step, takeTurn, ht]
      congr 1
      cases s; simp_all
    refine ⟨_, [], rfl, ?_⟩
    rcases engine [] (.inr ⟨ht, rfl⟩) hs with h | h | h
    · exact .inl h
    · exact .inr (.inl h)
    · exact .inr (.inr (.inl h))
  | cons turn ts =>
    cases turn with
    | engine =>
      have hs : step s = engineTurn { s with turns := ts } := by simp [step, takeTurn, ht]
      refine ⟨_, ts, rfl, ?_⟩
      rcases engine ts (.inl ht) hs with h | h | h
      · exact .inl h
      · exact .inr (.inl h)
      · exact .inr (.inr (.inl h))
    | host act => exact ⟨_, ts, rfl, .inr (.inr (.inr ⟨act, rfl, by simp [step, takeTurn, ht]⟩))⟩

end Sys2Proof.Machine
end

