-- ==== Sys2Proof/Laws/HostPort.lean ====
section
/-! SUPPORT. The address map read address by address (20_memory.md R68), the words of the host's view, and the bytes
of a 32-bit access. -/

namespace Sys2Proof.Machine

/-! ### The address map -/

@[simp] theorem hostTarget_cmdAddr (n : Nat) : hostTarget n 0#14 = .cmd := by
  simp [hostTarget, byteAddr]

@[simp] theorem hostTarget_statusAddr (n : Nat) : hostTarget n 1#14 = .status := by
  simp [hostTarget, byteAddr]

theorem hostTarget_flags {n : Nat} {a : HostAddr} (h : a.toNat * 4 = 0x0008) : hostTarget n a = .flags := by
  simp [hostTarget, byteAddr, h]

theorem hostTarget_len {n : Nat} {a : HostAddr} (h : a.toNat * 4 = 0x000C) : hostTarget n a = .len := by
  simp [hostTarget, byteAddr, h]

theorem hostTarget_qWord {n : Nat} {a : HostAddr} {r : QReg} {w : BitVec 2}
    (h : a.toNat * 4 = 0x0010 + 16 * (regBits r).toNat + 4 * w.toNat) : hostTarget n a = .qWord r w := by
  have hb : byteAddr a = a.toNat * 4 := rfl
  have hw : w.toNat < 4 := w.isLt
  have hr : (regBits r).toNat < 4 := (regBits r).isLt
  rw [hostTarget, if_neg (by omega), if_neg (by omega), if_neg (by omega), if_neg (by omega), if_pos (by omega),
    show (byteAddr a - 0x0010) / 16 = (regBits r).toNat by omega,
    show (byteAddr a - 0x0010) % 16 / 4 = w.toNat by omega, BitVec.ofNat_toNat]
  cases r <;> simp [regNumber, regBits]

theorem hostTarget_window {n : Nat} {a : HostAddr} (h : 0x1000 ≤ a.toNat * 4) (h' : a.toNat * 4 < 0x1000 + n) :
    hostTarget n a = .window (a.toNat * 4 - 0x1000) := by
  have hb : byteAddr a = a.toNat * 4 := rfl
  rw [hostTarget, if_neg (by omega), if_neg (by omega), if_neg (by omega), if_neg (by omega), if_neg (by omega),
    if_pos (by omega), hb]

theorem hostTarget_reserved {n : Nat} {a : HostAddr}
    (h : (0x0050 ≤ a.toNat * 4 ∧ a.toNat * 4 < 0x1000) ∨ 0x1000 + n ≤ a.toNat * 4) : hostTarget n a = .reserved := by
  have hb : byteAddr a = a.toNat * 4 := rfl
  rw [hostTarget, if_neg (by omega), if_neg (by omega), if_neg (by omega), if_neg (by omega), if_neg (by omega),
    if_neg (by omega)]

/-- Every address is one of these; the windows' bounds come with it. -/
theorem hostTarget_cases (n : Nat) (a : HostAddr) :
    (hostTarget n a = .cmd ∧ a.toNat * 4 = 0x0000) ∨ (hostTarget n a = .status ∧ a.toNat * 4 = 0x0004) ∨
      (hostTarget n a = .flags ∧ a.toNat * 4 = 0x0008) ∨ (hostTarget n a = .len ∧ a.toNat * 4 = 0x000C) ∨
      (∃ r w, hostTarget n a = .qWord r w ∧ 0x0010 ≤ a.toNat * 4 ∧ a.toNat * 4 ≤ 0x004C) ∨
      (hostTarget n a = .window (a.toNat * 4 - 0x1000) ∧ 0x1000 ≤ a.toNat * 4 ∧ a.toNat * 4 < 0x1000 + n) ∨
      (hostTarget n a = .reserved ∧ 0x0050 ≤ a.toNat * 4) := by
  have hb : byteAddr a = a.toNat * 4 := rfl
  by_cases h0 : a.toNat * 4 = 0
  · exact .inl ⟨by rw [hostTarget, if_pos (by omega)], h0⟩
  by_cases h1 : a.toNat * 4 = 4
  · exact .inr (.inl ⟨by rw [hostTarget, if_neg (by omega), if_pos (by omega)], h1⟩)
  by_cases h2 : a.toNat * 4 = 8
  · exact .inr (.inr (.inl ⟨hostTarget_flags h2, h2⟩))
  by_cases h3 : a.toNat * 4 = 12
  · exact .inr (.inr (.inr (.inl ⟨hostTarget_len h3, h3⟩)))
  by_cases h4 : 0x0010 ≤ a.toNat * 4 ∧ a.toNat * 4 ≤ 0x004C
  · exact .inr (.inr (.inr (.inr (.inl ⟨_, _, by
      rw [hostTarget, if_neg (by omega), if_neg (by omega), if_neg (by omega), if_neg (by omega),
        if_pos (by omega)], h4⟩))))
  by_cases h5 : 0x1000 ≤ a.toNat * 4 ∧ a.toNat * 4 < 0x1000 + n
  · exact .inr (.inr (.inr (.inr (.inr (.inl ⟨hostTarget_window h5.1 h5.2, h5⟩)))))
  · exact .inr (.inr (.inr (.inr (.inr (.inr ⟨hostTarget_reserved (by omega), by omega⟩)))))

/-- Only byte address 4 is `STATUS`. -/
theorem hostTarget_status_iff {n : Nat} {a : HostAddr} : hostTarget n a = .status ↔ a.toNat * 4 = 0x0004 := by
  rcases hostTarget_cases n a with ⟨h, h'⟩ | ⟨h, h'⟩ | ⟨h, h'⟩ | ⟨h, h'⟩ | ⟨r, w, h, h', _⟩ | ⟨h, h', _⟩ | ⟨h, h'⟩ <;>
    simp [h] <;> omega

/-- The word address of `Q[r]` word `w` names it (R68). -/
@[simp] theorem hostTarget_qAddr (n : Nat) (r : QReg) (w : BitVec 2) : hostTarget n (qAddr r w) = .qWord r w :=
  hostTarget_qWord (by revert w; cases r <;> decide)

/-! ### Words -/

theorem word32_toNat (v : U128) (w : BitVec 2) : (word32 v w).toNat = v.toNat / 2 ^ (32 * w.toNat) % 2 ^ 32 := by
  simp [word32, BitVec.extractLsb'_toNat, Nat.shiftRight_eq_div_pow]

theorem two_bits (w : BitVec 2) : w = 0#2 ∨ w = 1#2 ∨ w = 2#2 ∨ w = 3#2 := by revert w; decide

theorem word32_zero_append (a b c d : U32) : word32 (a ++ b ++ c ++ d) 0#2 = d := by
  show BitVec.extractLsb' 0 32 _ = d
  rw [BitVec.extractLsb'_append_eq_of_add_le (by omega)]
  simp

theorem word32_one_append (a b c d : U32) : word32 (a ++ b ++ c ++ d) 1#2 = c := by
  show BitVec.extractLsb' 32 32 _ = c
  rw [BitVec.extractLsb'_append_eq_of_le (by omega), BitVec.extractLsb'_append_eq_of_add_le (by omega)]
  simp

theorem word32_two_append (a b c d : U32) : word32 (a ++ b ++ c ++ d) 2#2 = b := by
  show BitVec.extractLsb' 64 32 _ = b
  rw [BitVec.extractLsb'_append_eq_of_le (by omega), BitVec.extractLsb'_append_eq_of_le (by omega),
    BitVec.extractLsb'_append_eq_of_add_le (by omega)]
  simp

theorem word32_three_append (a b c d : U32) : word32 (a ++ b ++ c ++ d) 3#2 = a := by
  show BitVec.extractLsb' 96 32 _ = a
  rw [BitVec.extractLsb'_append_eq_of_le (by omega), BitVec.extractLsb'_append_eq_of_le (by omega),
    BitVec.extractLsb'_append_eq_of_le (by omega)]
  simp

/-- A value is determined by its four words. -/
theorem eq_of_word32 {v v' : U128} (h : ∀ w, word32 v w = word32 v' w) : v = v' := by
  apply BitVec.eq_of_toNat_eq
  have h0 := congrArg BitVec.toNat (h 0#2)
  have h1 := congrArg BitVec.toNat (h 1#2)
  have h2 := congrArg BitVec.toNat (h 2#2)
  have h3 := congrArg BitVec.toNat (h 3#2)
  simp only [word32_toNat, show (0#2).toNat = 0 from rfl, show (1#2).toNat = 1 from rfl,
    show (2#2).toNat = 2 from rfl, show (3#2).toNat = 3 from rfl] at h0 h1 h2 h3
  have := v.isLt
  have := v'.isLt
  omega

/-- The replaced word (10_state.md R23). -/
theorem word32_setWord32_self (v : U128) (w : BitVec 2) (d : U32) : word32 (setWord32 v w d) w = d := by
  rcases two_bits w with rfl | rfl | rfl | rfl
  · exact word32_zero_append _ _ _ _
  · exact word32_one_append _ _ _ _
  · exact word32_two_append _ _ _ _
  · exact word32_three_append _ _ _ _

/-- The other 96 bits (10_state.md R23). -/
theorem word32_setWord32_of_ne {w w' : BitVec 2} (h : w' ≠ w) (v : U128) (d : U32) :
    word32 (setWord32 v w d) w' = word32 v w' := by
  rcases two_bits w with rfl | rfl | rfl | rfl <;> rcases two_bits w' with rfl | rfl | rfl | rfl <;>
    first
      | exact absurd rfl h
      | (simp only [setWord32, if_true, if_false, BitVec.reduceEq]
         first
           | rw [word32_zero_append]
           | rw [word32_one_append]
           | rw [word32_two_append]
           | rw [word32_three_append])

theorem append_ofBool_toNat {n : Nat} (x : BitVec n) (b : Bool) :
    (x ++ BitVec.ofBool b).toNat = 2 * x.toNat + b.toNat := by
  rw [BitVec.toNat_append, ← Nat.shiftLeft_add_eq_or_of_lt (BitVec.ofBool b).isLt, Nat.shiftLeft_eq]
  cases b <;> simp <;> omega

/-- `STATUS` as a number (10_state.md R31). -/
theorem statusWord_toNat (s : State) :
    (statusWord s).toNat =
      16 * s.errCode.toNat + 8 * s.keyValid.toNat + 4 * s.hz.toNat + 2 * s.err.toNat + s.busy.toNat := by
  simp only [statusWord, append_ofBool_toNat]
  rw [BitVec.toNat_append]
  simp
  omega

/-- `FLAGS` as a number (10_state.md R28). -/
theorem flagsWord_toNat (f : FlagBits) :
    (flagsWord f).toNat = 16 * f.gt.toNat + 8 * f.eq.toNat + 4 * f.lt.toNat + 2 * f.odd.toNat + f.z.toNat := by
  simp only [flagsWord, append_ofBool_toNat]
  simp
  omega

/-! ### The bytes of a 32-bit access -/

theorem wordOf_toNat (f : Nat → U8) (a : Nat) :
    (wordOf f a).toNat =
      (f a).toNat * 2 ^ 24 + (f (a + 1)).toNat * 2 ^ 16 + (f (a + 2)).toNat * 2 ^ 8 + (f (a + 3)).toNat := by
  simp only [wordOf]
  rw [BitVec.toNat_append, ← Nat.shiftLeft_add_eq_or_of_lt (f (a + 3)).isLt, BitVec.toNat_append,
    ← Nat.shiftLeft_add_eq_or_of_lt (f (a + 2)).isLt, BitVec.toNat_append,
    ← Nat.shiftLeft_add_eq_or_of_lt (f (a + 1)).isLt]
  simp only [Nat.shiftLeft_eq]
  omega

/-- `MemRead(a, 4)` is the big-endian word of the four bytes (20_memory.md R61). -/
theorem ofNat_memRead_four (e : Nat) (m : Memory) (a : Nat) :
    BitVec.ofNat 32 (memRead e m a 4) = wordOf (memByte e m) a := by
  apply BitVec.eq_of_toNat_eq
  rw [wordOf_toNat, BitVec.toNat_ofNat]
  simp only [memRead, memBytes, beValue_cons, beValue_nil, List.length_cons, List.length_nil]
  have := (memByte e m a).isLt
  have := (memByte e m (a + 1)).isLt
  have := (memByte e m (a + 2)).isLt
  have := (memByte e m (a + 3)).isLt
  simp only [show a + 1 + 1 = a + 2 from rfl, show a + 2 + 1 = a + 3 from rfl]
  omega

theorem bufRead32_eq (s : State) (a : Nat) : bufRead32 s a = wordOf (bufByte s) a := ofNat_memRead_four _ _ _

/-- What `MemWrite(a, 4, v)` wrote reads back (20_memory.md R61). -/
theorem wordOf_memWrite (e : Nat) (m : Memory) (a : Nat) (v : U32) :
    wordOf (memByte e (memWrite m a 4 v.toNat)) a = v := by
  have h0 := memByte_memWrite_inside e m a 4 v.toNat 0 (by omega)
  rw [Nat.add_zero] at h0
  apply BitVec.eq_of_toNat_eq
  rw [wordOf_toNat, h0, memByte_memWrite_inside e m a 4 v.toNat 1 (by omega),
    memByte_memWrite_inside e m a 4 v.toNat 2 (by omega), memByte_memWrite_inside e m a 4 v.toNat 3 (by omega)]
  simp only [BitVec.toNat_ofNat, Nat.shiftRight_eq_div_pow]
  have := v.isLt
  omega

/-- Two byte functions that agree on the four bytes give the same word. -/
theorem wordOf_congr {f g : Nat → U8} {a : Nat} (h : ∀ k, k < 4 → f (a + k) = g (a + k)) : wordOf f a = wordOf g a := by
  have h0 := h 0 (by omega)
  rw [Nat.add_zero] at h0
  simp only [wordOf]
  rw [h0, h 1 (by omega), h 2 (by omega), h 3 (by omega)]

end Sys2Proof.Machine
end

