-- ==== Sys2Proof/Laws/Cipher.lean ====
section
/-! SUPPORT. The rounds of the block cipher, the words of a transformed block, the scratch block of `DEC`
(44_blockcipher.md R202, R203, R208 to R211). -/

namespace Sys2Proof.Machine

/-- `bufByte` with the state's fields in the open, for terms too large to unfold by unification. -/
theorem bufByte_eq (s : State) : bufByte s = memByte s.resets s.buf := rfl

/-! ### Rounds -/

theorem decRound_encRound (k : KeyFile) (x : Round) : decRound k (encRound k x) = x := by
  cases x; simp [decRound, encRound, BitVec.add_sub_cancel]

theorem encRound_decRound (k : KeyFile) (x : Round) : encRound k (decRound k x) = x := by
  cases x; simp [decRound, encRound, BitVec.sub_add_cancel]

/-- `AND 3` takes the two low bits (R202). -/
theorem keyIndex_eq (x : U32) : keyIndex x = x.setWidth 2 := by
  rw [keyIndex, BitVec.setWidth_and,
    show (BitVec.ofNat 32 (Config.keyWords - 1)).setWidth 2 = BitVec.allOnes 2 by decide,
    BitVec.and_allOnes]

/-- The key index is a number below `KEY_WORDS` (00_scope.md R7). -/
theorem keyIndex_toNat (x : U32) : (keyIndex x).toNat = x.toNat % Config.keyWords := by
  rw [keyIndex_eq, BitVec.toNat_setWidth]; rfl

/-- The last round taken off. -/
theorem encRounds_last (k : KeyFile) (n : Nat) (x : Round) : encRounds k (n + 1) x = encRound k (encRounds k n x) := by
  induction n generalizing x with
  | zero => rfl
  | succ n ih => rw [encRounds, ih]; rfl

/-- The last round taken off. -/
theorem decRounds_last (k : KeyFile) (n : Nat) (x : Round) : decRounds k (n + 1) x = decRound k (decRounds k n x) := by
  induction n generalizing x with
  | zero => rfl
  | succ n ih => rw [decRounds, ih]; rfl

/-- The running sum does not depend on key or data. -/
theorem encRounds_sum (k : KeyFile) (n : Nat) (x : Round) :
    (encRounds k n x).sum = x.sum + BitVec.ofNat 32 (n * 0x9E3779B9) := by
  induction n with
  | zero => simp [encRounds]
  | succ n ih =>
    rw [encRounds_last]
    simp only [encRound, ih, Config.delta]
    rw [BitVec.add_assoc, ← BitVec.ofNat_add, Nat.succ_mul]

/-- The running sum does not depend on key or data. -/
theorem decRounds_sum (k : KeyFile) (n : Nat) (x : Round) :
    (decRounds k n x).sum = x.sum - BitVec.ofNat 32 (n * 0x9E3779B9) := by
  induction n with
  | zero => simp [decRounds]
  | succ n ih =>
    rw [decRounds_last]
    simp only [decRound, ih, Config.delta]
    rw [BitVec.sub_sub, ← BitVec.ofNat_add, Nat.succ_mul]

/-! ### Blocks in `BUF` -/

/-- The two words of a transformed block. -/
theorem wordOf_transformBlock (f : U32 → U32 → U32 × U32) (e : Nat) (m : Memory) (a : Nat) :
    (wordOf (memByte e (transformBlock f e m a)) a, wordOf (memByte e (transformBlock f e m a)) (a + 4)) =
      f (wordOf (memByte e m) a) (wordOf (memByte e m) (a + 4)) := by
  simp only [transformBlock, ofNat_memRead_four]
  rw [wordOf_memWrite, wordOf_congr (a := a) fun k hk => memByte_memWrite_outside e _ (a + 4) 4 _ (a + k) (by omega),
    wordOf_memWrite]

/-- Each of the transformed blocks. -/
theorem wordOf_transformBlocks (f : U32 → U32 → U32 × U32) (e : Nat) (m : Memory) (n j : Nat) (hj : j < n) :
    (wordOf (memByte e (transformBlocks f e m n)) (8 * j), wordOf (memByte e (transformBlocks f e m n)) (8 * j + 4)) =
      f (wordOf (memByte e m) (8 * j)) (wordOf (memByte e m) (8 * j + 4)) := by
  induction n with
  | zero => omega
  | succ n ih =>
    rw [transformBlocks_succ]
    by_cases h : j = n
    · subst h
      rw [wordOf_transformBlock,
        wordOf_congr (a := 8 * j) fun k hk => memByte_transformBlocks_outside f e m j (8 * j + k) (by omega),
        wordOf_congr (a := 8 * j + 4) fun k hk => memByte_transformBlocks_outside f e m j (8 * j + 4 + k) (by omega)]
    · rw [wordOf_congr (a := 8 * j) fun k hk => memByte_transformBlock_outside f e _ (8 * n) (8 * j + k) (by omega),
        wordOf_congr (a := 8 * j + 4) fun k hk =>
          memByte_transformBlock_outside f e _ (8 * n) (8 * j + 4 + k) (by omega), ih (by omega)]

/-- `ENC` leaves everything beyond `EncryptLength(n)` (R210). -/
theorem memByte_encryptBuf_outside (k : KeyFile) (e : Nat) (m : Memory) (n x : Nat) (hx : encryptLength n ≤ x) :
    memByte e (encryptBuf k e m n) x = memByte e m x := by
  rw [encryptLength_eq] at hx
  rw [encryptBuf_eq,
    memByte_transformBlock_outside _ _ _ _ _ (by omega), memByte_padBlock_outside _ _ _ _ _ (by omega) (by omega),
    memByte_transformBlocks_outside _ _ _ _ _ (by omega)]

theorem beBytes_four (v : U32) :
    beBytes 4 v.toNat = [v.extractLsb' 24 8, v.extractLsb' 16 8, v.extractLsb' 8 8, v.extractLsb' 0 8] := by
  simp [beBytes, BitVec.extractLsb']

/-- The eight bytes of a block. -/
theorem getElem?_beBytes_block (v : U32 × U32) (x : Nat) (hx : x < 8) :
    (beBytes 4 v.1.toNat ++ beBytes 4 v.2.toNat)[x]? = some (byteOfBlock v x) := by
  rw [beBytes_four, beBytes_four]
  simp only [byteOfBlock]
  rcases (by omega : x = 0 ∨ x = 1 ∨ x = 2 ∨ x = 3 ∨ x = 4 ∨ x = 5 ∨ x = 6 ∨ x = 7) with
    rfl | rfl | rfl | rfl | rfl | rfl | rfl | rfl
  · rw [BitVec.extractLsb'_append_eq_of_le (by omega)]; rfl
  · rw [BitVec.extractLsb'_append_eq_of_le (by omega)]; rfl
  · rw [BitVec.extractLsb'_append_eq_of_le (by omega)]; rfl
  · rw [BitVec.extractLsb'_append_eq_of_le (by omega)]; rfl
  · rw [BitVec.extractLsb'_append_eq_of_add_le (by omega)]; rfl
  · rw [BitVec.extractLsb'_append_eq_of_add_le (by omega)]; rfl
  · rw [BitVec.extractLsb'_append_eq_of_add_le (by omega)]; rfl
  · rw [BitVec.extractLsb'_append_eq_of_add_le (by omega)]; rfl

/-- The bytes of the scratch block (R211). -/
theorem getElem?_scratchBlock (k : KeyFile) (e : Nat) (m : Memory) (n x : Nat) (hx : x < 8) :
    (scratchBlock k e m n)[x]? =
      some (byteOfBlock (decBlock k (wordOf (memByte e m) (n - 8)) (wordOf (memByte e m) (n - 4))) x) := by
  simp only [scratchBlock_eq, ofNat_memRead_four]
  exact getElem?_beBytes_block _ x hx

/-- The pad length is the last byte of the scratch block (R211). -/
theorem padLen_scratchBlock (k : KeyFile) (e : Nat) (m : Memory) (n : Nat) :
    padLen (scratchBlock k e m n) =
      (byteOfBlock (decBlock k (wordOf (memByte e m) (n - 8)) (wordOf (memByte e m) (n - 4))) 7).toNat := by
  rw [padLen, List.getLastD_eq_getLast?, List.getLast?_eq_getElem?, scratchBlock_length,
    getElem?_scratchBlock k e m n 7 (by omega)]
  rfl

/-- `DEC` leaves everything beyond the plaintext, the pad bytes included (R211). -/
theorem memByte_decryptBuf_outside (k : KeyFile) (e : Nat) (m : Memory) (n x : Nat) (h8 : n % 8 = 0) (h0 : 0 < n)
    (hp : padLen (scratchBlock k e m n) ≤ 8) (hx : n - padLen (scratchBlock k e m n) ≤ x) :
    memByte e (decryptBuf k e m n) x = memByte e m x := by
  rw [decryptBuf_eq,
    memByte_bufInsertAll_outside _ _ _ _ _ (by simp only [List.length_take, scratchBlock_length]; omega),
    memByte_transformBlocks_outside _ _ _ _ _ (by omega)]

end Sys2Proof.Machine
end

