-- ==== Sys2Proof/Laws/Decode.lean ====
section
/-! SUPPORT. The fields of an assembled word and the register numbers (30_encoding.md R91, R94, R102). -/

namespace Sys2Proof

/-- Every field of an assembled word reads back, and `z` is 0. -/
@[simp] theorem fieldsOf_assemble (op : U8) (qd qa qb : BitVec 2) (imm : U16) :
    fieldsOf (assemble op qd qa qb imm) = ⟨op, qd, qa, qb, 0#2, imm⟩ := by
  simp (disch := omega) only [fieldsOf, assemble, Fields.mk.injEq, BitVec.extractLsb'_append_eq_of_le,
    BitVec.extractLsb'_append_eq_of_add_le]
  simp

@[simp] theorem regOf_regBits (r : QReg) : regOf (regBits r) = r := by cases r <;> decide

@[simp] theorem regBits_regOf (b : BitVec 2) : regBits (regOf b) = b := by revert b; decide

end Sys2Proof
end

