-- ==== Sys2Proof/Laws/PerInstr.lean ====
section
/-! SUPPORT. The family EncodedOpcode, one lemma per command: its word carries its opcode and a zero `z` field
(30_encoding.md R91, R96). -/

namespace Sys2Proof.Laws.EncodedOpcode

/-- The opcode byte of each command, the `op` column of R96. -/
def opByte : Instr → U8
  | .nop => 0x00#8
  | .mov _ _ => 0x10#8
  | .ldc _ _ => 0x11#8
  | .add _ _ _ => 0x12#8
  | .sub _ _ _ => 0x13#8
  | .shl1 _ _ => 0x14#8
  | .shr1 _ _ => 0x15#8
  | .cmp _ _ => 0x16#8
  | .test _ => 0x17#8
  | .mulmod _ _ _ => 0x20#8
  | .powmod _ _ _ => 0x21#8
  | .ldq _ _ => 0x30#8
  | .stq _ _ => 0x31#8
  | .setkey _ => 0x40#8
  | .encblk _ => 0x41#8
  | .decblk _ => 0x42#8
  | .enc _ => 0x43#8
  | .dec _ => 0x44#8
  | .elen _ => 0x45#8
  | .dlen _ => 0x46#8

/-- The word of `i` has `i`'s opcode byte and `z = 0`. -/
def Statement (i : Instr) : Prop := (fieldsOf (encode i)).op = opByte i ∧ (fieldsOf (encode i)).z = 0#2

theorem nop : Statement .nop := by simp [Statement, encode, opByte]
theorem mov (qd qa : QReg) : Statement (.mov qd qa) := by simp [Statement, encode, opByte]
theorem ldc (qd : QReg) (id : U16) : Statement (.ldc qd id) := by simp [Statement, encode, opByte]
theorem add (qd qa qb : QReg) : Statement (.add qd qa qb) := by simp [Statement, encode, opByte]
theorem sub (qd qa qb : QReg) : Statement (.sub qd qa qb) := by simp [Statement, encode, opByte]
theorem shl1 (qd qa : QReg) : Statement (.shl1 qd qa) := by simp [Statement, encode, opByte]
theorem shr1 (qd qa : QReg) : Statement (.shr1 qd qa) := by simp [Statement, encode, opByte]
theorem cmp (qa qb : QReg) : Statement (.cmp qa qb) := by simp [Statement, encode, opByte]
theorem test (qa : QReg) : Statement (.test qa) := by simp [Statement, encode, opByte]
theorem mulmod (qd qa qb : QReg) : Statement (.mulmod qd qa qb) := by simp [Statement, encode, opByte]
theorem powmod (qd qa qb : QReg) : Statement (.powmod qd qa qb) := by simp [Statement, encode, opByte]
theorem ldq (qd : QReg) (off : U16) : Statement (.ldq qd off) := by simp [Statement, encode, opByte]
theorem stq (qa : QReg) (off : U16) : Statement (.stq qa off) := by simp [Statement, encode, opByte]
theorem setkey (qa : QReg) : Statement (.setkey qa) := by simp [Statement, encode, opByte]
theorem encblk (off : U16) : Statement (.encblk off) := by simp [Statement, encode, opByte]
theorem decblk (off : U16) : Statement (.decblk off) := by simp [Statement, encode, opByte]
theorem enc (len : U16) : Statement (.enc len) := by simp [Statement, encode, opByte]
theorem dec (len : U16) : Statement (.dec len) := by simp [Statement, encode, opByte]
theorem elen (len : U16) : Statement (.elen len) := by simp [Statement, encode, opByte]
theorem dlen (len : U16) : Statement (.dlen len) := by simp [Statement, encode, opByte]

end Sys2Proof.Laws.EncodedOpcode
end

