-- ==== Sys2Proof/Laws/Step.lean ====
section
/-! SUPPORT. What a completed command and a host action can do to the state, said once for all of them
(60_exceptions.md R241, R244; 20_memory.md R72, R73). -/

namespace Sys2Proof.Machine

/-- The nine shapes of a completion: an error, or a success that writes one register, nothing, the flags, the key,
`LEN`, bytes of `BUF`, or bytes and `LEN`. -/
theorem exec_cases (i : Instr) (s : State) :
    (∃ e, exec i s = raiseErr e s ∧ (wellFormed i = true → e ≠ .illegal)) ∨
      (∃ qd v, exec i s = complete (writeQ qd v s)) ∨
      exec i s = complete s ∨
      (∃ qa qb, i = .cmp qa qb ∧
        exec i s = complete { s with flags := compareFlags (readQ qa s) (readQ qb s) s.flags }) ∨
      (∃ qa, i = .test qa ∧ exec i s = complete { s with flags := testFlags (readQ qa s) s.flags }) ∨
      (∃ qa, i = .setkey qa ∧ exec i s = complete { s with k := keyWords (readQ qa s), keyValid := true }) ∨
      (∃ n : U16, (i = .elen n ∨ i = .dlen n) ∧
        ∃ l, l ≤ 65536 ∧ exec i s = complete { s with len := BitVec.ofNat 32 l }) ∨
      (∃ m, (memGood s.cfg.bufBytes s.buf → memGood s.cfg.bufBytes m) ∧
        ((∃ qa off, i = .stq qa off) ∨ ∃ off, i = .encblk off ∨ i = .decblk off) ∧
        exec i s = complete { s with buf := m }) ∨
      (∃ m n l, (memGood s.cfg.bufBytes s.buf → memGood s.cfg.bufBytes m) ∧ l ≤ 65536 ∧
        (i = .enc n ∨ i = .dec n) ∧ exec i s = complete { s with buf := m, len := BitVec.ofNat 32 l }) := by
  have q : ∀ {qd v}, exec i s = complete (writeQ qd v s) → (∃ qd v, exec i s = complete (writeQ qd v s)) :=
    fun h => ⟨_, _, h⟩
  cases i with
  | nop => exact .inr (.inr (.inl rfl))
  | mov => exact .inr (.inl (q rfl))
  | add => exact .inr (.inl (q rfl))
  | sub => exact .inr (.inl (q rfl))
  | shl1 => exact .inr (.inl (q rfl))
  | shr1 => exact .inr (.inl (q rfl))
  | ldc qd id =>
    cases h : constOf id with
    | some c => exact .inr (.inl ⟨_, _, execLdc_some h s⟩)
    | none =>
      refine .inl ⟨_, execLdc_none h s, fun hw => absurd h ?_⟩
      simp only [wellFormed, constIdLegal, decide_eq_true_eq] at hw
      rcases (by bv_omega : id = 0#16 ∨ id = 1#16 ∨ id = 2#16 ∨ id = 3#16) with rfl | rfl | rfl | rfl <;> simp [constOf]
  | cmp => exact .inr (.inr (.inr (.inl ⟨_, _, rfl, rfl⟩)))
  | test => exact .inr (.inr (.inr (.inr (.inl ⟨_, rfl, rfl⟩))))
  | setkey => exact .inr (.inr (.inr (.inr (.inr (.inl ⟨_, rfl, rfl⟩)))))
  | elen n =>
    have := n.isLt
    exact .inr (.inr (.inr (.inr (.inr (.inr (.inl ⟨_, .inl rfl, _, by rw [encryptLength_eq]; omega, rfl⟩))))))
  | dlen n =>
    have := n.isLt
    exact .inr (.inr (.inr (.inr (.inr (.inr (.inl ⟨_, .inr rfl, _, by simp only [decryptLength]; omega, rfl⟩))))))
  | mulmod =>
    simp only [exec, execMulmod]
    split
    · exact .inl ⟨_, rfl, by simp⟩
    · exact .inr (.inl ⟨_, _, rfl⟩)
  | powmod =>
    simp only [exec, execPowmod]
    split
    · exact .inl ⟨_, rfl, by simp⟩
    · exact .inr (.inl ⟨_, _, rfl⟩)
  | ldq =>
    simp only [exec, execLdq]
    split
    · exact .inr (.inl ⟨_, _, rfl⟩)
    · exact .inl ⟨_, rfl, by simp⟩
  | stq qa off =>
    rcases Bool.eq_false_or_eq_true (inRange s off.toNat 16) with h | h
    · refine .inr (.inr (.inr (.inr (.inr (.inr (.inr (.inl ⟨_, ?_, .inl ⟨_, _, rfl⟩, execStq_inside h qa⟩)))))))
      exact memWrite_good _ _ _ (by simpa [inRange] using h)
    · exact .inl ⟨_, execStq_outside h qa, by simp⟩
  | encblk off =>
    rcases Bool.eq_false_or_eq_true s.keyValid with hk | hk
    · rcases Bool.eq_false_or_eq_true (inRange s off.toNat 8) with h | h
      · refine .inr (.inr (.inr (.inr (.inr (.inr (.inr (.inl
          ⟨_, ?_, .inr ⟨_, .inl rfl⟩, execEncblk_ok hk h⟩)))))))
        exact transformBlock_good _ _ _ (by simpa [inRange] using h)
      · exact .inl ⟨.range, by simp [exec, execEncblk, Config.blockBytes, hk, h], by simp⟩
    · exact .inl ⟨.noKey, by simp [exec, execEncblk, hk], by simp⟩
  | decblk off =>
    rcases Bool.eq_false_or_eq_true s.keyValid with hk | hk
    · rcases Bool.eq_false_or_eq_true (inRange s off.toNat 8) with h | h
      · refine .inr (.inr (.inr (.inr (.inr (.inr (.inr (.inl
          ⟨_, ?_, .inr ⟨_, .inr rfl⟩, execDecblk_ok hk h⟩)))))))
        exact transformBlock_good _ _ _ (by simpa [inRange] using h)
      · exact .inl ⟨.range, by simp [exec, execDecblk, Config.blockBytes, hk, h], by simp⟩
    · exact .inl ⟨.noKey, by simp [exec, execDecblk, hk], by simp⟩
  | enc n =>
    rcases Bool.eq_false_or_eq_true s.keyValid with hk | hk
    · rcases Bool.eq_false_or_eq_true (inRange s 0 (encryptLength n.toNat)) with h | h
      · have := n.isLt
        exact .inr (.inr (.inr (.inr (.inr (.inr (.inr (.inr
          ⟨_, _, _, encryptBuf_good _ _ _ (by simpa [inRange] using h), by rw [encryptLength_eq]; omega, .inl rfl,
            execEnc_ok hk h⟩)))))))
      · exact .inl ⟨.range, by simp [exec, execEnc, hk, h], by simp⟩
    · exact .inl ⟨.noKey, by simp [exec, execEnc, hk], by simp⟩
  | dec n =>
    have := n.isLt
    rcases execDec_cases n s with h | h | h | h | h
    · exact .inl ⟨_, h.2, by simp⟩
    · exact .inl ⟨_, h.2.2, by simp⟩
    · exact .inl ⟨_, h.2.2.2.2, by simp⟩
    · exact .inl ⟨_, h.2.2.2.2.2, by simp⟩
    · obtain ⟨-, h0, h8, hr, -, -, h⟩ := h
      exact .inr (.inr (.inr (.inr (.inr (.inr (.inr (.inr
        ⟨_, _, _, decryptBuf_good _ _ _ h0 h8 (by simpa [inRange] using hr), by omega, .inr rfl, h⟩)))))))

/-- The six shapes of a host action: `Reset`; at most `HZ` and the record of answers; an accepted issue; a cleared
latch; a register word; a window word. -/
theorem hostAct_cases (act : HostAction) (s : State) :
    (act = .reset ∧ hostAct act s = resetAction s) ∨
      (∃ hz answers, hostAct act s = { s with hz := hz, answers := answers }) ∨
      (∃ w, s.busy = false ∧ s.err = false ∧ hostAct act s = { s with cmdr := w, busy := true }) ∨
      (s.busy = false ∧ ∃ hz, hostAct act s = { s with hz := hz, err := false, errCode := 0#4 }) ∨
      (∃ q, s.busy = false ∧ hostAct act s = { s with q := q }) ∨
      (∃ a d, act = .write a d ∧ s.busy = false ∧ 0x1000 ≤ a.toNat * 4 ∧ a.toNat * 4 < 0x1000 + s.cfg.bufBytes ∧
        hostAct act s = { s with buf := memWrite s.buf (a.toNat * 4 - 0x1000) 4 d.toNat }) := by
  cases act with
  | reset => exact .inl ⟨rfl, rfl⟩
  | read a =>
    refine .inr (.inl ?_)
    simp only [hostAct, hostRead]
    split
    · exact ⟨_, _, rfl⟩
    · exact ⟨s.hz, _, rfl⟩
  | write a d =>
    refine .inr ?_
    simp only [hostAct, hostWrite]
    split
    · exact .inl ⟨_, s.answers, rfl⟩
    · next hn =>
      have hn : s.busy = true → hostTarget s.cfg.bufBytes a = .status := fun hb => Decidable.byContradiction
        fun ht => hn ⟨hb, ht⟩
      have idle : ∀ {t}, hostTarget s.cfg.bufBytes a = t → t ≠ .status → s.busy = false := fun ht h =>
        (Bool.eq_false_or_eq_true s.busy).elim (fun hb => absurd (ht ▸ hn hb) h) id
      rcases hostTarget_cases s.cfg.bufBytes a with
        ⟨h, _⟩ | ⟨h, _⟩ | ⟨h, _⟩ | ⟨h, _⟩ | ⟨r, w, h, _, _⟩ | ⟨h, hl, hu⟩ | ⟨h, _⟩ <;> rw [h]
      · simp only [writeTarget, issue]
        split
        · exact .inl ⟨s.hz, s.answers, rfl⟩
        · next he => exact .inr (.inl ⟨_, idle h (by simp), by simpa using he, rfl⟩)
      · simp only [writeTarget, writeStatus]
        by_cases hc : d.getLsbD 1 = true ∧ s.busy = false
        · rw [if_pos hc]
          split
          · exact .inr (.inr (.inl ⟨hc.2, _, rfl⟩))
          · exact .inr (.inr (.inl ⟨hc.2, s.hz, rfl⟩))
        · rw [if_neg hc]
          split
          · exact .inl ⟨_, s.answers, rfl⟩
          · exact .inl ⟨s.hz, s.answers, rfl⟩
      · exact .inl ⟨s.hz, s.answers, rfl⟩
      · exact .inl ⟨s.hz, s.answers, rfl⟩
      · exact .inr (.inr (.inr (.inl ⟨_, idle h (by simp), rfl⟩)))
      · exact .inr (.inr (.inr (.inr ⟨a, d, rfl, idle h (by simp), hl, hu, rfl⟩)))
      · exact .inl ⟨s.hz, s.answers, rfl⟩

end Sys2Proof.Machine
end

