-- ==== Sys2Proof/Laws/Uint128.lean ====
section
/-! SUPPORT. The closed form of each pure function of the extended-precision unit, as a number
(40_uint128_arith.md R120 to R126). -/

namespace Sys2Proof.Machine

/-! ### `W` and `WORD` are the widths of the types (00_scope.md R7, R10) -/

theorem toNat_lt_width (v : U128) : v.toNat < 2 ^ Config.width := v.isLt

theorem toNat_lt_wordBits (v : U64) : v.toNat < 2 ^ Config.wordBits := v.isLt

theorem shl1_eq (a : U128) : shl1 a = pair ((high a <<< 1) ||| (low a >>> 63)) (low a <<< 1) := rfl

theorem shr1_eq (a : U128) : shr1 a = pair (high a >>> 1) ((low a >>> 1) ||| ((high a &&& 1#64) <<< 63)) := rfl

/-! ### Closed forms -/

theorem high_toNat (v : U128) : (high v).toNat = v.toNat / 2 ^ 64 := by
  have := v.isLt
  simp only [high, Config.wordBits, BitVec.extractLsb'_toNat, Nat.shiftRight_eq_div_pow]
  omega

theorem low_toNat (v : U128) : (low v).toNat = v.toNat % 2 ^ 64 := by
  simp [low, BitVec.extractLsb'_toNat]

theorem pair_toNat (h l : U64) : (pair h l).toNat = h.toNat * 2 ^ 64 + l.toNat := by
  rw [pair, BitVec.toNat_append, ← Nat.shiftLeft_add_eq_or_of_lt l.isLt, Nat.shiftLeft_eq]

/-- The sum modulo 2^128 (R120). -/
theorem add128_toNat (a b : U128) : (add128 a b).toNat = (a.toNat + b.toNat) % 2 ^ 128 := by
  have ha := a.isLt
  have hb := b.isLt
  simp only [add128, Config.wordBits, pair_toNat, BitVec.toNat_add, high_toNat, low_toNat]
  split <;> simp <;> omega

theorem add128_eq (a b : U128) : add128 a b = a + b :=
  BitVec.eq_of_toNat_eq (by rw [add128_toNat, BitVec.toNat_add])

theorem not128_eq (b : U128) : not128 b = ~~~b := by
  have h : ∀ x : U64, x ^^^ 0xFFFFFFFFFFFFFFFF#64 = ~~~x := fun x => by
    rw [show (0xFFFFFFFFFFFFFFFF#64) = BitVec.allOnes 64 by decide, BitVec.xor_allOnes]
  have := b.isLt
  apply BitVec.eq_of_toNat_eq
  rw [not128, h, h, pair_toNat, BitVec.toNat_not, BitVec.toNat_not, BitVec.toNat_not, high_toNat, low_toNat]
  omega

/-- The difference modulo 2^128 (R121). -/
theorem sub128_eq (a b : U128) : sub128 a b = a - b := by
  rw [sub128, neg128, add128_eq, add128_eq, not128_eq, BitVec.sub_eq_add_neg, BitVec.neg_eq_not_add]

theorem sub128_toNat (a b : U128) : (sub128 a b).toNat = (2 ^ 128 - b.toNat + a.toNat) % 2 ^ 128 := by
  rw [sub128_eq, BitVec.toNat_sub]

/-- The double modulo 2^128 (R122). -/
theorem shl1_toNat (a : U128) : (shl1 a).toNat = 2 * a.toNat % 2 ^ 128 := by
  have h : ((high a <<< 1) ||| (low a >>> 63)) = (high a <<< 1) + (low a >>> 63) := by
    refine (BitVec.add_eq_or_of_and_eq_zero _ _ ?_).symm
    ext i hi
    simp only [BitVec.getElem_and, BitVec.getElem_shiftLeft, BitVec.getElem_ushiftRight, BitVec.getElem_zero]
    rcases Nat.eq_zero_or_pos i with rfl | h
    · simp
    · rw [BitVec.getLsbD_of_ge _ _ (by omega), Bool.and_false]
  have := a.isLt
  rw [shl1_eq, pair_toNat, h, BitVec.toNat_add, BitVec.toNat_shiftLeft, BitVec.toNat_ushiftRight, BitVec.toNat_shiftLeft,
    high_toNat, low_toNat, Nat.shiftLeft_eq, Nat.shiftLeft_eq, Nat.shiftRight_eq_div_pow]
  omega

/-- The half, rounded down (R123). -/
theorem shr1_toNat (a : U128) : (shr1 a).toNat = a.toNat / 2 := by
  have h : ((low a >>> 1) ||| ((high a &&& 1#64) <<< 63)) = (low a >>> 1) + ((high a &&& 1#64) <<< 63) := by
    refine (BitVec.add_eq_or_of_and_eq_zero _ _ ?_).symm
    ext i hi
    simp only [BitVec.getElem_and, BitVec.getElem_shiftLeft, BitVec.getElem_ushiftRight, BitVec.getElem_zero]
    by_cases h : i < 63
    · simp [h]
    · rw [BitVec.getLsbD_of_ge _ _ (by omega), Bool.false_and]
  have := a.isLt
  rw [shr1_eq, pair_toNat, h, BitVec.toNat_add, BitVec.toNat_shiftLeft, BitVec.toNat_ushiftRight, BitVec.toNat_ushiftRight,
    BitVec.toNat_and, high_toNat, low_toNat, Nat.shiftLeft_eq, Nat.shiftRight_eq_div_pow, Nat.shiftRight_eq_div_pow,
    show (1#64).toNat = 1 from rfl, Nat.and_one_is_mod]
  omega

/-- Zero as a number (R125). -/
theorem isZero_eq (a : U128) : isZero a = decide (a.toNat = 0) := by
  have := a.isLt
  rw [isZero, Bool.eq_iff_iff]
  simp only [Bool.and_eq_true, beq_iff_eq, decide_eq_true_eq, ← BitVec.toNat_inj, high_toNat, low_toNat,
    BitVec.toNat_ofNat]
  omega

/-- Odd as a number (R126). -/
theorem isOdd_eq (a : U128) : isOdd a = decide (a.toNat % 2 = 1) := by
  rw [isOdd, ← BitVec.testBit_toNat, low_toNat, Nat.testBit_zero]
  congr 2
  omega

/-- The comparison is that of unsigned integers (R124). -/
theorem compare128_eq (a b : U128) :
    compare128 a b = if a.toNat < b.toNat then .lt else if a.toNat = b.toNat then .eq else .gt := by
  have ha := a.isLt
  have hb := b.isLt
  simp only [compare128, ne_eq, ← BitVec.toNat_inj, high_toNat, low_toNat]
  split
  · split <;> split <;> first | rfl | (split <;> first | rfl | omega) | omega
  · split
    · split <;> split <;> first | rfl | (split <;> first | rfl | omega) | omega
    · split
      · omega
      · split
        · rfl
        · omega

end Sys2Proof.Machine
end

