-- ==== Sys2Proof/Tests/Slice0.lean ====
section
/-! SUPPORT. Tests of the model on values that stand in the spec (95_test_vectors.md, ids V-…;
30_encoding.md R96, R102), and for every obligation with hypotheses a witness that meets them. -/

open Sys2Proof Sys2Proof.Machine

namespace Sys2Proof.Tests

-- One theorem after the other: a kernel evaluation then never holds a thread while it waits for another.
set_option Elab.async false

/-! ### Helpers -/

/-- The state after an outcome, if there is one. -/
def after (o : Host.Outcome State Fault Refusal) : Option State :=
  match o with
  | .next t => some t
  | _ => none

/-- What `f` reads in the state after `i` runs on `s`. -/
def sees {α : Type} (i : Instr) (s : State) (f : State → α) : Option α := (after (exec i s)).map f

/-- Reset, with turns. -/
def idle (ts : List Turn) : State := { State.reset with turns := ts }

/-- A command word in flight, the engine next. -/
def flight (c : U32) : State := { State.reset with cmdr := c, busy := true, turns := [.engine] }

/-- Reset, with two registers loaded. -/
def loaded (a b : U128) : State := { State.reset with q := ⟨0xAAAA#128, a, b, 0xBBBB#128⟩ }

/-- The key of V-S1. -/
def sourceKey : U128 := 0x651085792dd1313e5b550778601818ae#128

/-- The key of V-S1 set, and bytes in `BUF` from an address. -/
def keyed (a : Nat) (bs : List U8) : State :=
  { State.reset with k := keyWords sourceKey, keyValid := true, buf := bufInsertAll [] a bs }

/-- ASCII `Hello,World!`. -/
def hello : List U8 :=
  [0x48#8, 0x65#8, 0x6c#8, 0x6c#8, 0x6f#8, 0x2c#8, 0x57#8, 0x6f#8, 0x72#8, 0x6c#8, 0x64#8, 0x21#8]

/-- The ciphertext of V-S1. -/
def helloCipher : List U8 :=
  [0x5d#8, 0xb2#8, 0xed#8, 0xc1#8, 0x95#8, 0x35#8, 0x90#8, 0x14#8, 0x53#8, 0x8b#8, 0x5c#8, 0xbb#8, 0x73#8, 0x48#8,
   0x07#8, 0x97#8]

/-! ### WellFormed: the one check, and the decoder's rejections by name -/

theorem test_wellFormed_ldc_refuses_four : wellFormed (.ldc .q0 4#16) = false := by decide
theorem test_wellFormed_ldc_accepts_three : wellFormed (.ldc .q0 3#16) = true := by decide
/-- V-E18 to V-E24, R97. -/
theorem test_decode_illegal :
    decode 0x01000000#32 = .illegal .unknownOp ∧ decode 0x18000000#32 = .illegal .unknownOp ∧
      decode 0x00010000#32 = .illegal .reservedBits ∧ decode 0x12000001#32 = .illegal .unusedField ∧
      decode 0x17C00000#32 = .illegal .unusedField ∧ decode 0x30100000#32 = .illegal .unusedField ∧
      decode 0x16400000#32 = .illegal .unusedField ∧ decode 0x43400000#32 = .illegal .unusedField ∧
      decode 0x11000004#32 = .illegal .constId := by decide

/-! ### Decoding: every constructor, words of 95_test_vectors.md section 7 -/

theorem test_decode_nop : decode 0x00000000#32 = .command .nop := by decide
theorem test_decode_mov : decode 0x10800000#32 = .command (.mov .q2 .q0) := by decide
theorem test_decode_ldc : decode 0x11800001#32 = .command (.ldc .q2 1#16) := by decide
theorem test_decode_add : decode 0x126C0000#32 = .command (.add .q1 .q2 .q3) := by decide
theorem test_decode_sub : decode 0x13180000#32 = .command (.sub .q0 .q1 .q2) := by decide
theorem test_decode_shl1 : decode 0x14100000#32 = .command (.shl1 .q0 .q1) := by decide
theorem test_decode_shr1 : decode 0x15000000#32 = .command (.shr1 .q0 .q0) := by decide
theorem test_decode_cmp : decode 0x162C0000#32 = .command (.cmp .q2 .q3) := by decide
theorem test_decode_test : decode 0x17300000#32 = .command (.test .q3) := by decide
theorem test_decode_mulmod : decode 0x20C40000#32 = .command (.mulmod .q3 .q0 .q1) := by decide
theorem test_decode_powmod : decode 0x21E40000#32 = .command (.powmod .q3 .q2 .q1) := by decide
theorem test_decode_ldq : decode 0x30800003#32 = .command (.ldq .q2 3#16) := by decide
theorem test_decode_stq : decode 0x31100003#32 = .command (.stq .q1 3#16) := by decide
theorem test_decode_setkey : decode 0x40300000#32 = .command (.setkey .q3) := by decide
theorem test_decode_encblk : decode 0x41000008#32 = .command (.encblk 8#16) := by decide
theorem test_decode_decblk : decode 0x42000000#32 = .command (.decblk 0#16) := by decide
theorem test_decode_enc : decode 0x4300000C#32 = .command (.enc 12#16) := by decide
theorem test_decode_dec : decode 0x44000010#32 = .command (.dec 16#16) := by decide
theorem test_decode_elen : decode 0x4500000C#32 = .command (.elen 12#16) := by decide
theorem test_decode_dlen : decode 0x4600000D#32 = .command (.dlen 13#16) := by decide

/-- The other direction: the words of section 7 and of the programs P1, P3. -/
theorem test_encode :
    encode (.add .q1 .q2 .q3) = 0x126C0000#32 ∧ encode (.ldq .q1 32#16) = 0x30400020#32 ∧
      encode (.powmod .q2 .q0 .q1) = 0x21840000#32 ∧ encode (.setkey .q0) = 0x40000000#32 ∧
      encode (.dec 0xFFFF#16) = 0x4400FFFF#32 := by decide

/-! ### The meanings, one step each -/

theorem test_nop_changes_busy_only : after (exec .nop (flight 0#32)) = some { flight 0#32 with busy := false } := by
  decide
/-- 95 section 2, `MOV q3, q1`. -/
theorem test_mov : sees (.mov .q3 .q1) (loaded Config.prime 7#128) (readQ .q3) =
    some 0xFFFFFFFFFFFFFFFFFFFFFFFFFFFFFF61#128 := by decide +kernel
/-- 95 section 2, `LDC q2, #INVP`. -/
theorem test_ldc : sees (.ldc .q2 2#16) State.reset (readQ .q2) = some 0x9f#128 := by decide +kernel
/-- V-A5: the carry from Low into High. -/
theorem test_add_carries : sees (.add .q0 .q1 .q2) (loaded 0xFFFFFFFFFFFFFFFF#128 1#128) (readQ .q0) =
    some 0x10000000000000000#128 := by decide +kernel
/-- V-A1, destination also a source: the wrap. -/
theorem test_add_wraps : sees (.add .q1 .q1 .q2) (loaded 0xFFFFFFFFFFFFFFFFFFFFFFFFFFFFFFFF#128 1#128) (readQ .q1) =
    some 0#128 := by decide +kernel
/-- V-A10: the borrow. -/
theorem test_sub_borrows : sees (.sub .q0 .q1 .q2) (loaded 0x10000000000000000#128 1#128) (readQ .q0) =
    some 0xFFFFFFFFFFFFFFFF#128 := by decide +kernel
/-- V-A14. -/
theorem test_sub : sees (.sub .q0 .q1 .q2)
    (loaded 0x0123456789abcdeffedcba9876543210#128 0xfedcba98765432100123456789abcdef#128) (readQ .q0) =
    some 0x02468acf13579bdffdb97530eca86421#128 := by decide +kernel
/-- V-A25. -/
theorem test_shl1 : sees (.shl1 .q0 .q1) (loaded 0x80000000000000008000000000000001#128 0#128) (readQ .q0) =
    some 0x10000000000000002#128 := by decide +kernel
/-- V-A26: the bit that crosses the words. -/
theorem test_shr1 : sees (.shr1 .q0 .q1) (loaded 0x10000000000000000#128 0#128) (readQ .q0) =
    some 0x8000000000000000#128 := by decide +kernel
/-- V-A34: the comparison is unsigned. -/
theorem test_cmp_unsigned : sees (.cmp .q1 .q2) (loaded 0x80000000000000000000000000000000#128 1#128)
    (fun t => flagsWord t.flags) = some 0x10#32 := by decide +kernel
/-- V-A33: High decides; and flag independence, Z and ODD are kept. -/
theorem test_cmp_keeps_z_odd : sees (.cmp .q1 .q2)
    { loaded 0x10000000000000000#128 0xFFFFFFFFFFFFFFFF#128 with flags := ⟨true, true, true, false, false⟩ }
    (fun t => flagsWord t.flags) = some 0x13#32 := by decide +kernel
/-- V-A43. -/
theorem test_test_odd : sees (.test .q1) (loaded 0x10000000000000001#128 0#128) (fun t => flagsWord t.flags) =
    some 0x02#32 := by decide +kernel
/-- V-A40 after a CMP that gave GT: LT, EQ, GT are kept. -/
theorem test_test_zero : sees (.test .q1) { loaded 0#128 0#128 with flags := ⟨false, true, false, false, true⟩ }
    (fun t => flagsWord t.flags) = some 0x11#32 := by decide +kernel
/-- V-M14: multiplier above P. -/
theorem test_mulmod : sees (.mulmod .q0 .q1 .q2)
    (loaded 0xFFFFFFFFFFFFFFFFFFFFFFFFFFFFFF60#128 0xFFFFFFFFFFFFFFFFFFFFFFFFFFFFFFFF#128) (readQ .q0) =
    some 0xFFFFFFFFFFFFFFFFFFFFFFFFFFFFFEC3#128 := by decide +kernel
/-- V-E16, V-M5 swapped: the check is on `qa`, the multiplicand. -/
theorem test_mulmod_operand : sees (.mulmod .q0 .q1 .q2) (loaded Config.prime 5#128)
    (fun t => (statusWord t, readQ .q0 t)) = some (0x22#32, 0xAAAA#128) := by decide +kernel
/-- V-M44. -/
theorem test_powmod : sees (.powmod .q0 .q1 .q2) (loaded 5#128 56#128) (readQ .q0) =
    some 0x140c78940f6a24fdffc78873d4490f9d#128 := by decide +kernel
/-- V-E17: the check is on `qb`, the exponent. -/
theorem test_powmod_expzero : sees (.powmod .q0 .q1 .q2) (loaded 5#128 0#128)
    (fun t => (statusWord t, readQ .q0 t)) = some (0x32#32, 0xAAAA#128) := by decide +kernel
/-- V-T1. -/
theorem test_stq : sees (.stq .q1 3#16) (loaded 0x500c1bdba67f00684715fa5cdaf82724#128 0#128) (fun t => t.buf) =
    some [(3, 0x50#8), (4, 0x0c#8), (5, 0x1b#8), (6, 0xdb#8), (7, 0xa6#8), (8, 0x7f#8), (9, 0x00#8), (10, 0x68#8),
      (11, 0x47#8), (12, 0x15#8), (13, 0xfa#8), (14, 0x5c#8), (15, 0xda#8), (16, 0xf8#8), (17, 0x27#8),
      (18, 0x24#8)] := by decide +kernel
/-- V-T6: no wrap. -/
theorem test_stq_range : sees (.stq .q1 0xFFFF#16) (loaded 1#128 0#128) (fun t => (statusWord t, t.buf)) =
    some (0x42#32, []) := by decide +kernel
/-- V-T2, with the ciphertext bytes of V-S1 as data. -/
theorem test_ldq : sees (.ldq .q2 3#16) (keyed 3 helloCipher) (readQ .q2) =
    some 0x5db2edc195359014538b5cbb73480797#128 := by decide +kernel
/-- V-T5. -/
theorem test_ldq_range : sees (.ldq .q0 4081#16) State.reset (fun t => (statusWord t, readQ .q0 t)) =
    some (0x42#32, 0#128) := by decide +kernel
/-- V-B1. -/
theorem test_setkey : sees (.setkey .q1) (loaded sourceKey 0#128) (fun t => (t.k, t.keyValid)) =
    some (⟨0x601818ae#32, 0x5b550778#32, 0x2dd1313e#32, 0x65108579#32⟩, true) := by decide +kernel
/-- V-B3c, at an odd offset. -/
theorem test_encblk : sees (.encblk 1#16) (keyed 1 (hello.take 8)) (fun t => t.buf) =
    some [(1, 0x5d#8), (2, 0xb2#8), (3, 0xed#8), (4, 0xc1#8), (5, 0x95#8), (6, 0x35#8), (7, 0x90#8), (8, 0x14#8)] := by
  decide +kernel
/-- V-E3, V-E11: no key, and the range. -/
theorem test_encblk_errors :
    sees (.encblk 0#16) State.reset statusWord = some 0x52#32 ∧
      sees (.encblk 4089#16) (keyed 0 []) statusWord = some 0x4A#32 := by decide +kernel
/-- V-B3c backwards. -/
theorem test_decblk : sees (.decblk 0#16) (keyed 0 helloCipher) (fun t => memBytes 0 t.buf 0 16) =
    some (hello.take 8 ++ helloCipher.drop 8) := by decide +kernel
theorem test_decblk_errors :
    sees (.decblk 0#16) State.reset statusWord = some 0x52#32 ∧
      sees (.decblk 0xFFFF#16) (keyed 0 []) statusWord = some 0x4A#32 := by decide +kernel
/-- V-S1. -/
theorem test_enc : sees (.enc 12#16) (keyed 0 hello) (fun t => (memBytes 0 t.buf 0 16, t.len, statusWord t)) =
    some (helloCipher, 16#32, 0x08#32) := by decide +kernel
/-- V-E2, V-E10. -/
theorem test_enc_errors :
    sees (.enc 0#16) State.reset statusWord = some 0x52#32 ∧
      sees (.enc 4096#16) (keyed 0 []) statusWord = some 0x4A#32 := by decide +kernel
/-- V-B12: the residue after the plaintext stays. -/
theorem test_dec : sees (.dec 16#16) (keyed 0 helloCipher) (fun t => (memBytes 0 t.buf 0 16, t.len)) =
    some (hello ++ [0x73#8, 0x48#8, 0x07#8, 0x97#8], 12#32) := by decide +kernel
/-- V-E1, V-E7, V-E8, V-E13. -/
theorem test_dec_errors :
    sees (.dec 12#16) State.reset statusWord = some 0x52#32 ∧
      sees (.dec 0xFFFF#16) (keyed 0 []) statusWord = some 0x6A#32 ∧
      sees (.dec 4104#16) (keyed 0 []) statusWord = some 0x4A#32 ∧
      sees (.dec 8#16) (keyed 0 [0xa0#8, 0x4d#8, 0x0f#8, 0xbc#8, 0x4c#8, 0xbe#8, 0x62#8, 0xbe#8]) statusWord =
        some 0x7A#32 := by decide +kernel
/-- 95 section 5, the largest. -/
theorem test_elen : sees (.elen 0xFFFF#16) State.reset (fun t => t.len) = some 65536#32 := by decide +kernel
theorem test_dlen : sees (.dlen 13#16) State.reset (fun t => t.len) = some 13#32 := by decide +kernel

/-! ### Pure functions -/

/-- V-B3, V-B3a. -/
theorem test_encBlock :
    encBlock ⟨0#32, 0#32, 0#32, 0#32⟩ 0#32 0#32 = (0xdee9d4d8#32, 0xf7131ed9#32) ∧
      encBlock ⟨0xffffffff#32, 0xffffffff#32, 0xffffffff#32, 0xffffffff#32⟩ 0xffffffff#32 0xffffffff#32 =
        (0x28fc2891#32, 0xe623566a#32) := by decide +kernel
/-- V-B3e. -/
theorem test_decBlock : decBlock (keyWords sourceKey) 0#32 0#32 = (0xbb6da272#32, 0x153296d4#32) := by decide +kernel
/-- V-M17, V-M19, V-M20: the fold's two sub-cases and the largest value without it. -/
theorem test_mulMod_fold :
    mulMod 0x7fffffffffffffffffffffffffffffff#128 2#128 = 0x9d#128 ∧
      mulMod 0x7fffffffffffffffffffffffffffffb0#128 2#128 = 0xffffffffffffffffffffffffffffff60#128 ∧
      mulMod 0x80000000000000000000000000000000#128 2#128 = 0x9f#128 := by decide +kernel
/-- V-M52. -/
theorem test_powMod_reduces_the_base : powMod 0xffffffffffffffffffffffffffffff63#128 3#128 = 8#128 := by decide +kernel
/-- V-S3, V-T16, V-T20, V-T21. -/
theorem test_fromHex :
    fromHex "500c1bdba67f00684715fa5cdaf82724".toList = 0x500c1bdba67f00684715fa5cdaf82724#128 ∧
      fromHex "C0DE".toList = 0xc0de#128 ∧ fromHex "g00000000000000000000000000000001".toList = 1#128 ∧
      fromHex "0x10".toList = 0#128 ∧ fromHex "C0DEHello".toList = 0#128 := by decide +kernel
theorem test_toHex : toHex 0x500c1bdba67f00684715fa5cdaf82724#128 = "500c1bdba67f00684715fa5cdaf82724".toList := by
  decide +kernel
/-- V-T27, V-T25. -/
theorem test_toBase64 :
    toBase64 sourceKey = "ZRCFeS3RMT5bVQd4YBgYrg==".toList ∧
      toBase64 Config.prime = "////////////////////YQ==".toList := by decide +kernel
/-- V-T28, V-S4. -/
theorem test_fromBase64 :
    fromBase64 .zero "UAwb26Z/AGhHFfpc2vgnJA==".toList = 0x500c1bdba67f00684715fa5cdaf82724#128 ∧
      fromBase64 .fromBytes "Hello".toList = 0#128 := by decide +kernel
/-- V-T10, V-T11, V-T12. -/
theorem test_fromBytes :
    fromBytes [1#8, 2#8] = 0x0102#128 ∧
      fromBytes (0xff#8 :: List.replicate 15 0#8 ++ [7#8]) = 7#128 ∧
      (toBytes 0x500c1bdba67f00684715fa5cdaf82724#128).take 3 = [0x50#8, 0x0c#8, 0x1b#8] := by decide +kernel
/-- V-M73. -/
theorem test_deriveSecret :
    deriveSecret 6#128 0x71afd498d#128 = some 0x914080cb8f80047f1a0e06dff3076823#128 ∧
      (generateKeyPair 6#128).map (·.publicKey) = some 0x3d09#128 ∧ generateKeyPair 0#128 = none := by decide +kernel
/-- 30_encoding.md R101. -/
theorem test_expand_dhpub :
    expand (.dhpub .q0 .q1) = some [.ldc .q0 3#16, .powmod .q0 .q0 .q1] ∧ expand (.dhpub .q1 .q1) = none := by decide

/-! ### The host's side and the step -/

/-- V-T7. -/
theorem test_read_q_words : hostRead (qAddr .q1 0#2) (loaded 0x500c1bdba67f00684715fa5cdaf82724#128 0#128) =
    (0xdaf82724#32, loaded 0x500c1bdba67f00684715fa5cdaf82724#128 0#128) := by decide +kernel
/-- V-T8. -/
theorem test_write_q_word : readQ .q1 (hostWrite (qAddr .q1 1#2) 0xdeadbeef#32
    (loaded 0x500c1bdba67f00684715fa5cdaf82724#128 0#128)) = 0x500c1bdba67f0068deadbeefdaf82724#128 := by decide +kernel
/-- V-T3: big-endian lanes of the window. -/
theorem test_read_window : (hostRead (windowAddr 1) (keyed 0 hello)).1 = 0x6f2c576f#32 := by decide +kernel
theorem test_write_window : (hostWrite (windowAddr 1) 0x6f2c576f#32 State.reset).buf =
    [(4, 0x6f#8), (5, 0x2c#8), (6, 0x57#8), (7, 0x6f#8)] := by decide +kernel
/-- R73. -/
theorem test_busy_read : hostRead cmdAddr (flight 5#32) = (0#32, { flight 5#32 with hz := true }) := by decide
/-- The command placed by `withFetchWord` is the one the next step completes. -/
theorem test_withFetchWord : (after (step (State.reset.withFetchWord 32 0x11C00003))).map
    (fun t => (readQ .q3 t, t.cmdr, t.busy, t.turns)) = some (5#128, 0x11C00003#32, false, []) := by decide +kernel
/-- V-E19: an illegal word completes with `E_ILLEGAL`. -/
theorem test_step_illegal : (after (step (flight 0xFFFFFFFF#32))).map statusWord = some 0x12#32 := by decide +kernel

/-! ### Witnesses: hypotheses of the obligations, met together -/

theorem witness_ResetActionInAnyState :
    ∃ (s : State) (ts : List Turn), s.turns = .host .reset :: ts ∧ s.busy = true :=
  ⟨{ flight 0#32 with turns := [.host .reset, .engine] }, [.engine], by decide⟩

theorem witness_DecodeOfEncodeIsTheCommand :
    wellFormed (.ldc .q3 3#16) = true ∧ wellFormed (.enc 0xFFFF#16) = true := by
  decide

theorem witness_EncodeOfDecodeIsTheWord :
    decode 0x11C00003#32 = .command (.ldc .q3 3#16) ∧ decode 0x4400FFFF#32 = .command (.dec 0xFFFF#16) := by decide

theorem witness_DecodeFollowsTheOpcodeTable :
    ∃ c, ∃ r₁ ∈ opcodeTable, ∃ r₂ ∈ opcodeTable, c &&& r₁.mask = r₁.pattern ∧ c &&& r₂.mask = r₂.pattern :=
  ⟨0x11C00003#32, ⟨.ldc, 0x11000000#32, 0xFF3FFFFC#32⟩, by decide, ⟨.ldc, 0x11000000#32, 0xFF3FFFFC#32⟩, by decide,
    by decide⟩

/-- One word for each cause, and the two ends of an illegal word. -/
theorem witness_IllegalWordsAndTheirEnd :
    (∀ c ∈ [0x18000000#32, 0x00010000#32, 0x16400000#32, 0x30100000#32, 0x14040000#32, 0x12000001#32, 0x11000004#32],
      ∃ why, decode c = .illegal why) ∧
    (flight 0x11000004#32).cmdr = 0x11000004#32 ∧ State.reset.busy = false ∧ State.reset.err = false := by
  refine ⟨?_, rfl, rfl, rfl⟩
  intro c hc
  simp only [List.mem_cons, List.not_mem_nil, or_false] at hc
  rcases hc with rfl | rfl | rfl | rfl | rfl | rfl | rfl
  · exact ⟨.unknownOp, by decide⟩
  · exact ⟨.reservedBits, by decide⟩
  · exact ⟨.unusedField, by decide⟩
  · exact ⟨.unusedField, by decide⟩
  · exact ⟨.unusedField, by decide⟩
  · exact ⟨.unusedField, by decide⟩
  · exact ⟨.constId, by decide⟩

theorem witness_StepRunsTheDecodedCommand :
    (∃ (s : State) (ts : List Turn), engineNext s ts ∧ s.busy = true ∧ decode s.cmdr = .command (.ldc .q3 3#16)) ∧
      (∃ (s : State) (ts : List Turn),
        engineNext s ts ∧ s.turns = [] ∧ s.busy = true ∧ decode s.cmdr = .command .nop) ∧
      (∃ (s : State) (ts : List Turn), engineNext s ts ∧ s.busy = false) :=
  ⟨⟨flight 0x11C00003#32, [], .inl rfl, rfl, by decide⟩,
    ⟨{ flight 0#32 with turns := [] }, [], .inr ⟨rfl, rfl⟩, rfl, rfl, by decide⟩, ⟨idle [], [], .inr ⟨rfl, rfl⟩, rfl⟩⟩

theorem witness_StepPerformsTheHostAction :
    (∃ s : State, s.turns = [.host (.write 0x3FFF#14 7#32)]) ∧ (∃ s : State, s.turns = [.host (.read 0#14)]) ∧
      ∃ s : State, s.turns = [.host .reset] :=
  ⟨⟨idle [.host (.write 0x3FFF#14 7#32)], rfl⟩, ⟨idle [.host (.read 0#14)], rfl⟩, ⟨idle [.host .reset], rfl⟩⟩

theorem witness_IssueDoesOneOfThreeThings :
    cmdAddr.toNat * 4 = 0x0000 ∧ (flight 0#32).busy = true ∧
      (∃ s : State, s.busy = false ∧ s.err = true) ∧ State.reset.busy = false ∧ State.reset.err = false :=
  ⟨rfl, rfl, ⟨{ State.reset with err := true, errCode := 1#4 }, rfl, rfl⟩, rfl, rfl⟩

/-- The addresses next to `STATUS` and the last one. -/
theorem witness_BusyAccessOnlySetsHz :
    (flight 0#32).busy = true ∧ (0#14).toNat * 4 ≠ 0x0004 ∧ (2#14).toNat * 4 ≠ 0x0004 ∧
      (0x3FFF#14).toNat * 4 ≠ 0x0004 := by decide

theorem witness_StatusWriteClearsLatches : statusAddr.toNat * 4 = 0x0004 := by decide

/-- Each clause of the map at the ends of its range (`BUF_BYTES` = 4096). -/
theorem witness_HostReadFollowsTheAddressMap :
    State.reset.busy = false ∧ ((0x0000#14).toNat * 4 = 0x0000 ∧ (0x0001#14).toNat * 4 = 0x0004 ∧
      (0x0002#14).toNat * 4 = 0x0008 ∧ (0x0003#14).toNat * 4 = 0x000C ∧
      (0x0004#14).toNat * 4 = 0x0010 + 16 * (regBits .q0).toNat + 4 * 0 ∧
      (0x0013#14).toNat * 4 = 0x0010 + 16 * (regBits .q3).toNat + 4 * 3) ∧
      (0x1000 ≤ (0x0400#14).toNat * 4 ∧ (0x07FF#14).toNat * 4 < 0x1000 + State.reset.cfg.bufBytes) ∧
      (0x0050 ≤ (0x0014#14).toNat * 4 ∧ (0x03FF#14).toNat * 4 < 0x1000) ∧
      0x1000 + State.reset.cfg.bufBytes ≤ (0x0800#14).toNat * 4 ∧
      ∃ s : State, s.busy = true ∧ (0x0001#14 : HostAddr).toNat * 4 = 0x0004 :=
  ⟨rfl, by decide, by decide, by decide, by decide, flight 0#32, rfl, rfl⟩

/-- The two ends of the map meet nowhere: the targets of the addresses on either side of each boundary. -/
theorem witness_address_map_boundaries :
    hostTarget 4096 0x0003#14 = .len ∧ hostTarget 4096 0x0004#14 = .qWord .q0 0#2 ∧
      hostTarget 4096 0x0013#14 = .qWord .q3 3#2 ∧ hostTarget 4096 0x0014#14 = .reserved ∧
      hostTarget 4096 0x03FF#14 = .reserved ∧ hostTarget 4096 0x0400#14 = .window 0 ∧
      hostTarget 4096 0x07FF#14 = .window 4092 ∧ hostTarget 4096 0x0800#14 = .reserved := by decide

theorem witness_HostWriteFollowsTheAddressMap :
    State.reset.busy = false ∧ (0x0000#14).toNat * 4 = 0x0000 ∧ (0x0001#14).toNat * 4 = 0x0004 ∧
      (0x0013#14).toNat * 4 = 0x0010 + 16 * (regBits .q3).toNat + 4 * (3#2).toNat ∧
      (0x1000 ≤ (0x07FF#14).toNat * 4 ∧ (0x07FF#14).toNat * 4 < 0x1000 + State.reset.cfg.bufBytes) ∧
      (0x0002#14).toNat * 4 = 0x0008 ∧ 0x1000 + State.reset.cfg.bufBytes ≤ (0x0800#14).toNat * 4 := by decide

theorem witness_SetqLoadsTheRegister : ∃ s : State, s.busy = false ∧ s.turns = setQTurns .q3 sourceKey ++ [.engine] :=
  ⟨idle (setQTurns .q3 sourceKey ++ [.engine]), rfl, rfl⟩

theorem witness_LatchedErrorDropsEveryCommand :
    ∃ s : State, s.busy = false ∧ s.err = true ∧ s.turns = [0#32, 0x11C00003#32].flatMap issueTurns ++ [] :=
  ⟨{ idle ([0#32, 0x11C00003#32].flatMap issueTurns ++ []) with err := true, errCode := 1#4 }, rfl, rfl, rfl⟩

theorem witness_IssuedCommandCompletesAfterAnyPolling :
    ∃ s : State, s.busy = false ∧ s.err = false ∧ decode 0x11C00003#32 = .command (.ldc .q3 3#16) ∧
      s.turns = .host (.write cmdAddr 0x11C00003#32) ::
        (List.replicate 2 (.host (.read statusAddr)) ++ .engine :: []) :=
  ⟨idle (.host (.write cmdAddr 0x11C00003#32) :: (List.replicate 2 (.host (.read statusAddr)) ++ .engine :: [])),
    rfl, rfl, by decide, rfl⟩

theorem witness_HostCannotSeeTheKey :
    (∃ s : State, hostActs (.read statusAddr) s ∧ s.k ≠ ⟨0#32, 0#32, 0#32, 0#32⟩) ∧ ∃ s : State, hostActs .reset s :=
  ⟨⟨{ keyed 0 [] with turns := [.host (.read statusAddr)] }, ⟨[], rfl⟩, by decide +kernel⟩,
    ⟨idle [.host .reset], [], rfl⟩⟩

/-- A state that meets the invariant, and its step. -/
theorem witness_EveryStepKeepsTheInvariant : ∃ s t : State, Inv s ∧ step s = .next t ∧ t ≠ s :=
  ⟨flight 0x11C00003#32, { flight 0x11C00003#32 with q := ⟨0#128, 0#128, 0#128, 5#128⟩, busy := false, turns := [] },
    ⟨by decide, by decide, by decide, by decide, by decide, by decide, by decide, by decide, by decide⟩, rfl,
    by decide⟩

/-- A change of the key by `SETKEY`, and its end by `Reset`. -/
theorem witness_OnlySetkeyAndResetChangeTheKey :
    (∃ s t : State, step s = .next t ∧ t.keyValid ≠ s.keyValid) ∧
      ∃ s t : State, step s = .next t ∧ s.keyValid = true ∧ t.keyValid = false :=
  ⟨⟨flight 0x40000000#32, _, rfl, by decide⟩, ⟨{ keyed 0 [] with turns := [.host .reset] }, _, rfl, rfl, rfl⟩⟩

/-- A change of the flags by `TEST`, of `LEN` by `ELEN`. -/
theorem witness_OnlyNamedCommandsChangeFlagsAndLen :
    (∃ s t : State, step s = .next t ∧ t.flags ≠ s.flags) ∧ ∃ s t : State, step s = .next t ∧ t.len ≠ s.len :=
  ⟨⟨flight 0x17000000#32, _, rfl, by decide⟩, ⟨flight 0x45000000#32, _, rfl, by decide⟩⟩

/-- A byte of `BUF` changed by the host's window (the byte before is written, so that it is known). -/
theorem witness_OnlyNamedActionsChangeTheBuffer : ∃ s t : State, step s = .next t ∧ ∃ a, bufByte t a ≠ bufByte s a :=
  ⟨{ keyed 0 hello with turns := [.host (.write (windowAddr 0) 0#32)] }, _, rfl, 0, by decide +kernel⟩

theorem witness_NopOnlyCompletes : decode 0#32 = .command .nop ∧ (fieldsOf 0#32).op = 0x00#8 := by decide

/-- The ids where the clauses of `LDC` meet. -/
theorem witness_LdcLoadsTheConstant : ¬3 < (3#16).toNat ∧ 3 < (4#16).toNat := by decide

theorem witness_Uint128Laws : (BitVec.ofNat 128 (2 ^ 128 - 1) : U128).toNat = 2 ^ 128 - 1 := by decide +kernel

/-- Multiplicands just below P. -/
theorem witness_MulModLoopInvariant : (BitVec.ofNat 128 (2 ^ 128 - 160) : U128).toNat < 2 ^ 128 - 159 := by
  decide +kernel

theorem witness_MulModIsTheProductModuloP : (BitVec.ofNat 128 (2 ^ 128 - 160) : U128).toNat < 2 ^ 128 - 159 := by
  decide +kernel

/-- V-M18, V-M20: one value of each sub-case. -/
theorem witness_DoublingCorrectionIsRight :
    ((0x7fffffffffffffffffffffffffffffb1#128).toNat < 2 ^ 128 - 159 ∧
      2 ^ 128 - 159 ≤ 2 * (0x7fffffffffffffffffffffffffffffb1#128).toNat) ∧
      (0x80000000000000000000000000000000#128).toNat < 2 ^ 128 - 159 ∧
      2 ^ 128 - 159 ≤ 2 * (0x80000000000000000000000000000000#128).toNat := by decide +kernel

theorem witness_PowModIsThePowerModuloP : (0xFFFFFFFFFFFFFFFFFFFFFFFFFFFFFFFF#128 : U128) ≠ 0#128 := by decide +kernel

theorem witness_PowModIterativeFormAgrees : (1#128 : U128) ≠ 0#128 := by decide +kernel

/-- The largest multiplicand and the smallest value refused. -/
theorem witness_MulmodCommand :
    (readQ .q1 (loaded (BitVec.ofNat 128 (2 ^ 128 - 160)) 0#128)).toNat < 2 ^ 128 - 159 ∧
      2 ^ 128 - 159 ≤ (readQ .q1 (loaded Config.prime 0#128)).toNat := by decide +kernel

theorem witness_PowmodCommand :
    readQ .q2 (loaded 5#128 1#128) ≠ 0#128 ∧ readQ .q2 (loaded 5#128 0#128) = 0#128 := by decide +kernel

theorem witness_ModularLaws :
    (125#128).toNat < 2 ^ 128 - 159 ∧ (625#128).toNat < 2 ^ 128 - 159 ∧ 1 ≤ (3#128).toNat ∧ 1 ≤ (4#128).toNat ∧
      (3#128).toNat + (4#128).toNat < 2 ^ 128 := by decide +kernel

theorem witness_KeyExchangeAgrees : (6#128 : U128) ≠ 0#128 ∧ (15#128 : U128) ≠ 0#128 := by decide

/-- V-T4, V-T5: the last offset in range and the first out of it. -/
theorem witness_LdqLoadsSixteenBytes :
    (4080#16).toNat + 16 ≤ State.reset.cfg.bufBytes ∧ State.reset.cfg.bufBytes < (4081#16).toNat + 16 := by decide

theorem witness_StqStoresSixteenBytes :
    (4080#16).toNat + 16 ≤ State.reset.cfg.bufBytes ∧ State.reset.cfg.bufBytes < (4081#16).toNat + 16 := by decide

theorem witness_StoreAndLoadAreInverse : (4080#16).toNat + 16 ≤ State.reset.cfg.bufBytes := by decide

theorem witness_RoundScheduleDependsOnTheRoundOnly : 0 < 32 ∧ 31 < 32 := by decide

/-- V-E3, V-E11. -/
theorem witness_EncblkTransformsOneBlock :
    State.reset.keyValid = false ∧ (keyed 0 []).keyValid = true ∧
      (keyed 0 []).cfg.bufBytes < (4089#16).toNat + 8 ∧ (4088#16).toNat + 8 ≤ (keyed 0 []).cfg.bufBytes := by
  decide +kernel

theorem witness_DecblkTransformsOneBlock :
    State.reset.keyValid = false ∧ (keyed 0 []).keyValid = true ∧
      (keyed 0 []).cfg.bufBytes < (4089#16).toNat + 8 ∧ (4088#16).toNat + 8 ≤ (keyed 0 []).cfg.bufBytes := by
  decide +kernel

/-- V-E9, V-E10: the largest legal length and the next. -/
theorem witness_EncEncryptsThePaddedPrefix :
    State.reset.keyValid = false ∧ (keyed 0 []).keyValid = true ∧
      (keyed 0 []).cfg.bufBytes < 8 * ((4096#16).toNat / 8) + 8 ∧
      8 * ((4095#16).toNat / 8) + 8 ≤ (keyed 0 []).cfg.bufBytes := by decide +kernel

/-- The pad length of `DEC #n` as the obligation computes it. -/
def padOf (s : State) (n : Nat) : Nat :=
  (byteOfBlock (decBlock s.k (wordOf (bufByte s) (n - 8)) (wordOf (bufByte s) (n - 4))) 7).toNat

/-- V-E1, V-E4, V-E5, V-E8, V-E13, V-E14, V-B12, V-B4: each clause of `DEC`, the pad lengths 0, 9, 4 and 8. -/
theorem witness_DecDecryptsAndRemovesThePadding :
    State.reset.keyValid = false ∧ (keyed 0 []).keyValid = true ∧ (0#16).toNat = 0 ∧ (12#16).toNat % 8 ≠ 0 ∧
      (0 < (4104#16).toNat ∧ (4104#16).toNat % 8 = 0 ∧ (keyed 0 []).cfg.bufBytes < (4104#16).toNat) ∧
      (0 < (8#16).toNat ∧ (8#16).toNat % 8 = 0 ∧ (8#16).toNat ≤ (keyed 0 []).cfg.bufBytes) ∧
      padOf (keyed 0 [0x32#8, 0x5f#8, 0xad#8, 0xb2#8, 0x36#8, 0xb2#8, 0x5d#8, 0xed#8]) 8 = 0 ∧
      padOf (keyed 0 [0xa0#8, 0x4d#8, 0x0f#8, 0xbc#8, 0x4c#8, 0xbe#8, 0x62#8, 0xbe#8]) 8 = 9 ∧
      padOf (keyed 0 helloCipher) 16 = 4 ∧
      padOf (keyed 0 [0x11#8, 0xc8#8, 0x3f#8, 0xa3#8, 0x77#8, 0x8e#8, 0x30#8, 0x18#8]) 8 = 8 := by decide +kernel

theorem witness_EncThenDecRestoresThePlaintext :
    (keyed 0 hello).keyValid = true ∧ (keyed 0 hello).cfg.legal = true ∧
      (4095#16).toNat / 8 * 8 + 8 ≤ (keyed 0 hello).cfg.bufBytes := by decide +kernel

/-- V-T12, V-T11, V-T20, V-S4. -/
theorem witness_CodecsTruncateExtendAndDegrade :
    (List.replicate 16 7#8 : List U8).length = 16 ∧ ([1#8, 2#8] : List U8).length ≤ 16 ∧
      "00000000000000000000000000000001".toList.length = 32 ∧ "C0DEHello".toList.length ≤ 32 ∧
      ∃ c ∈ "C0DEHello".toList, hexValue c = none :=
  ⟨by decide, by decide, by decide, by decide, 'H', by decide, by decide⟩

end Sys2Proof.Tests
end

section
/-! PROOFS. The family 10_state.md: reset, the host's turns, the write-1-to-clear bits of `STATUS`, the invariant, and
which steps can change the key, `FLAGS`, `LEN` and `BUF`. A rule about every step is proved for a completed command
(from `exec_cases`), for a host action (from `hostAct_cases`), and put together by `step_next_cases`. -/

namespace Sys2Proof.Machine

/-! ### One step -/

/-- A host turn is its action on the state with the turn taken off. -/
theorem step_host {s : State} {act : HostAction} {ts : List Turn} (h : s.turns = .host act :: ts) :
    step s = .next (hostAct act { s with turns := ts }) := by
  simp [step, takeTurn, h]

/-- What led to the next state `t`: an idle pass, the completion of a legal word, the completion of an illegal word, or
a host action. -/
theorem step_next_cases {s t : State} (h : step s = .next t) :
    ∃ ts, t = { s with turns := ts } ∨
      (∃ i, completes i s ∧ exec i { s with turns := ts } = .next t) ∨
      raiseErr .illegal { s with turns := ts } = .next t ∨
      ∃ act, hostActs act s ∧ t = hostAct act { s with turns := ts } := by
  obtain ⟨u, ts, rfl, hc⟩ := step_cases s
  refine ⟨ts, ?_⟩
  rcases hc with ⟨-, -, hs⟩ | ⟨hn, hb, i, hd, hs⟩ | ⟨-, -, -, hs⟩ | ⟨act, ha, hs⟩ <;> rw [h] at hs
  · exact .inl (by simpa using hs)
  · exact .inr (.inl ⟨i, ⟨hb, hd, ts, hn⟩, hs.symm⟩)
  · exact .inr (.inr (.inl hs.symm))
  · exact .inr (.inr (.inr ⟨act, ⟨ts, ha⟩, by simpa using hs⟩))

/-! ### Reset -/

/-- The registers at reset meet the invariant with any legal parameters, whatever the model's own fields hold. -/
theorem inv_reset {c : Config.Params} (hc : c.legal = true) (n : Nat) (ts : List Turn) (ws : List U32) :
    Inv { State.reset with cfg := c, resets := n, turns := ts, answers := ws } where
  mem_wf := rfl
  mem_range := by simp [State.reset]
  cfg_legal := hc
  code_zero := by simp [State.reset]
  code_le := by simp [State.reset]
  busy_no_err := fun _ => rfl
  len_le := by simp [State.reset]
  flags_one := by simp [State.reset]
  key_reset := fun _ => rfl

/-- Settles O21: the default parameters are legal. -/
theorem resetStateMeetsTheInvariant : Obligations.ResetStateMeetsTheInvariant :=
  inv_reset (c := Config.Params.default) (by decide) 0 [] []

/-- Settles O1: each register is read off the reset state, and the two status words are made of zeros. -/
theorem resetStateHasEveryRegisterZero : Obligations.ResetStateHasEveryRegisterZero := by
  have regs : ∀ r, readQ r State.reset = 0#128 := fun r => by cases r <;> rfl
  exact ⟨⟨regs, rfl, rfl, rfl, rfl, rfl, rfl, rfl, rfl, rfl⟩, by decide, by decide⟩

/-! ### The invariant -/

/-- The two clauses of the invariant about the list of written bytes. -/
theorem Inv.buf_good {s : State} (h : Inv s) : memGood s.cfg.bufBytes s.buf := ⟨h.mem_wf, h.mem_range⟩

/-- The turns are no part of the invariant. -/
theorem Inv.with_turns {s : State} (h : Inv s) (ts : List Turn) : Inv { s with turns := ts } := { h with }

/-- A success lowers `BUSY`, under which the latch is free. -/
theorem Inv.of_complete {s t : State} (h : Inv s) (ht : complete s = .next t) : Inv t := by
  rw [complete_next.1 ht]
  exact { h with busy_no_err := by simp }

/-- An error sets `ERR` together with a code from 1 to 7, and lowers `BUSY`. -/
theorem Inv.of_raiseErr {s t : State} {e : ErrCode} (h : Inv s) (ht : raiseErr e s = .next t) : Inv t := by
  rw [raiseErr_next.1 ht]
  exact
    { h with
      code_zero := by simp [errBits_ne_zero e]
      code_le := errBits_le e
      busy_no_err := by simp }

/-- Bytes written inside `BUF` in canonical form. -/
theorem Inv.with_buf {s : State} (h : Inv s) {m : Memory} (hm : memGood s.cfg.bufBytes m) :
    Inv { s with buf := m } :=
  { h with mem_wf := hm.1, mem_range := hm.2 }

/-- `LEN` takes a length of at most 65536. -/
theorem Inv.with_len {s : State} (h : Inv s) {l : Nat} (hl : l ≤ 65536) : Inv { s with len := BitVec.ofNat 32 l } :=
  { h with len_le := by rw [BitVec.toNat_ofNat]; exact Nat.le_trans (Nat.mod_le _ _) hl }

/-- `CMP` leaves exactly one of LT, EQ, GT (10_state.md R28). -/
theorem compareFlags_one (a b : U128) (f : FlagBits) :
    ((compareFlags a b f).lt, (compareFlags a b f).eq, (compareFlags a b f).gt) ∈
      [(false, false, false), (true, false, false), (false, true, false), (false, false, true)] := by
  cases h : compare128 a b <;> simp [compareFlags, h]

/-- A completed command keeps the invariant. -/
theorem exec_inv {i : Instr} {s t : State} (hs : Inv s) (h : exec i s = .next t) : Inv t := by
  rcases exec_cases i s with ⟨e, he, -⟩ | ⟨qd, v, he⟩ | he | ⟨qa, qb, -, he⟩ | ⟨qa, -, he⟩ | ⟨qa, -, he⟩ |
    ⟨n, -, l, hl, he⟩ | ⟨m, hm, -, he⟩ | ⟨m, n, l, hm, hl, -, he⟩ <;> rw [he] at h
  case inl => exact hs.of_raiseErr h
  all_goals refine Inv.of_complete ?_ h
  · exact { hs with }
  · exact hs
  · exact { hs with flags_one := compareFlags_one _ _ _ }
  · exact { hs with }
  · exact { hs with key_reset := by simp }
  · exact hs.with_len hl
  · exact hs.with_buf (hm hs.buf_good)
  · exact (hs.with_buf (hm hs.buf_good)).with_len hl

/-- `BUF_BYTES` is a multiple of 4, so a word that begins inside the window ends inside it (00_scope.md R8). -/
theorem window_word_inside {n b : Nat} {c : Config.Params} (hc : c.legal = true) (hb : b = n * 4) (hl : 0x1000 ≤ b)
    (hu : b < 0x1000 + c.bufBytes) : b - 0x1000 + 4 ≤ c.bufBytes := by
  simp only [Config.Params.legal, Bool.and_eq_true, beq_iff_eq] at hc
  obtain ⟨⟨h8, -⟩, -⟩ := hc
  omega

/-- A host action keeps the invariant. -/
theorem hostAct_inv {s : State} (hs : Inv s) (act : HostAction) : Inv (hostAct act s) := by
  rcases hostAct_cases act s with ⟨-, h⟩ | ⟨hz, ws, h⟩ | ⟨w, -, herr, h⟩ | ⟨-, hz, h⟩ | ⟨q, -, h⟩ |
    ⟨a, d, -, -, hl, hu, h⟩ <;> rw [h]
  · exact inv_reset hs.cfg_legal _ _ _
  · exact { hs with }
  · exact { hs with busy_no_err := fun _ => herr }
  · exact { hs with code_zero := by simp, code_le := by simp, busy_no_err := by simp }
  · exact { hs with }
  · exact hs.with_buf (memWrite_good _ _ _ (window_word_inside hs.cfg_legal rfl hl hu) hs.buf_good)

/-- Settles O22: taking a turn off, a completed command, an illegal word's error and a host action each keep the
invariant. -/
theorem everyStepKeepsTheInvariant : Obligations.EveryStepKeepsTheInvariant := by
  intro s t hs h
  obtain ⟨ts, rfl | ⟨i, -, he⟩ | he | ⟨act, -, rfl⟩⟩ := step_next_cases h
  · exact hs.with_turns ts
  · exact exec_inv (hs.with_turns ts) he
  · exact (hs.with_turns ts).of_raiseErr he
  · exact hostAct_inv (hs.with_turns ts) act

/-! ### The host's turns -/

/-- Settles O9: each of the three actions is `hostAct` at its own turn. -/
theorem stepPerformsTheHostAction : Obligations.StepPerformsTheHostAction := fun _ _ =>
  ⟨fun _ _ h => step_host h, fun _ h => step_host h, fun h => step_host h⟩

/-- Byte address 4 is `STATUS`, which is written busy or not (20_memory.md R72, R73). -/
theorem hostWrite_status {a : HostAddr} (h : a.toNat * 4 = 0x0004) (d : U32) (s : State) :
    hostWrite a d s = writeStatus d s := by
  simp [hostWrite, hostTarget_status_iff.2 h, writeTarget]

/-- The write-1-to-clear bits field by field (10_state.md R32). -/
theorem writeStatus_eq (d : U32) (s : State) :
    writeStatus d s =
      { s with
        err := if d.getLsbD 1 = true ∧ s.busy = false then false else s.err
        errCode := if d.getLsbD 1 = true ∧ s.busy = false then 0#4 else s.errCode
        hz := if d.getLsbD 2 = true then false else s.hz } := by
  by_cases hc : d.getLsbD 1 = true ∧ s.busy = false
  · simp only [writeStatus, if_pos hc]
    split <;> rfl
  · simp only [writeStatus, if_neg hc]
    split <;> rfl

/-- Settles O14: the address is that of `STATUS`, and its write acts field by field. -/
theorem statusWriteClearsLatches : Obligations.StatusWriteClearsLatches := fun s _ d h =>
  (hostWrite_status h d s).trans (writeStatus_eq d s)

/-! ### The host and the key -/

/-- No host address names a key word (10_state.md R25). -/
theorem readTarget_withKey (x : HostTarget) (k' : KeyFile) (s : State) :
    readTarget x { s with k := k' } = readTarget x s := by
  cases x with
  | qWord r w => exact congrArg (word32 · w) (readQ_congr rfl r)
  | _ => rfl

/-- Where a write goes and what it writes does not depend on the key words. -/
theorem writeTarget_withKey (x : HostTarget) (d : U32) (k' : KeyFile) (s : State) :
    writeTarget x d { s with k := k' } = { writeTarget x d s with k := k' } := by
  cases x with
  | cmd => simp only [writeTarget, issue]; split <;> rfl
  | status => simp only [writeTarget, writeStatus_eq]
  | qWord r w =>
    have hq : readQ r { s with k := k' } = readQ r s := readQ_congr rfl r
    simp only [writeTarget, hq]; rfl
  | _ => rfl

theorem hostRead_withKey (a : HostAddr) (k' : KeyFile) (s : State) :
    hostRead a { s with k := k' } = ((hostRead a s).1, { (hostRead a s).2 with k := k' }) := by
  simp only [hostRead, readTarget_withKey]
  split <;> rfl

theorem hostWrite_withKey (a : HostAddr) (d : U32) (k' : KeyFile) (s : State) :
    hostWrite a d { s with k := k' } = { hostWrite a d s with k := k' } := by
  simp only [hostWrite, writeTarget_withKey]
  split <;> rfl

/-- An action other than `Reset` carries any key words along. -/
theorem hostAct_withKey {act : HostAction} (h : act ≠ .reset) (k' : KeyFile) (s : State) :
    hostAct act { s with k := k' } = { hostAct act s with k := k' } := by
  cases act with
  | read a => simp only [hostAct, hostRead_withKey]
  | write a d => exact hostWrite_withKey a d k' s
  | reset => exact absurd rfl h

/-- Settles O20: `Reset` sets the key words of both states to 0, every other action carries them along. -/
theorem hostCannotSeeTheKey : Obligations.HostCannotSeeTheKey := by
  rintro s k' act ⟨ts, hts⟩
  refine ⟨_, _, step_host hts, step_host hts, ?_⟩
  by_cases hr : act = .reset
  · subst hr
    exact ⟨rfl, rfl, fun h => absurd rfl h⟩
  · have hk : ∀ k, hostAct act { s with k := k, turns := ts } = { hostAct act { s with turns := ts } with k := k } :=
      fun k => hostAct_withKey hr k { s with turns := ts }
    have own : (hostAct act { s with turns := ts }).k = s.k := (congrArg State.k (hk s.k) :)
    rw [hk k']
    exact ⟨rfl, rfl, fun _ => ⟨own, rfl⟩⟩

/-! ### What each command and each host action leaves unchanged -/

/-- What the command `i` leaves as it was in `s`, unless `i` is one of the commands named for it (10_state.md R21, R25,
R28, R29, R33). -/
structure CommandFrame (i : Instr) (s t : State) : Prop where
  key : keyKept s t ∨ ∃ qa, i = .setkey qa ∧ t.keyValid = true
  flags : t.flags = s.flags ∨ (∃ qa qb, i = .cmp qa qb) ∨ ∃ qa, i = .test qa
  len : t.len = s.len ∨ ∃ n, i = .enc n ∨ i = .dec n ∨ i = .elen n ∨ i = .dlen n
  mem : memKept s t ∨ (∃ qa off, i = .stq qa off) ∨ ∃ n, i = .encblk n ∨ i = .decblk n ∨ i = .enc n ∨ i = .dec n

/-- What the host action `act` leaves as it was in `s`, `Reset` and window writes apart. -/
structure HostFrame (act : HostAction) (s t : State) : Prop where
  key : act = .reset ∨ keyKept s t
  flags : act = .reset ∨ t.flags = s.flags
  len : act = .reset ∨ t.len = s.len
  mem : act = .reset ∨
    (∃ a d, act = .write a d ∧ s.busy = false ∧ 0x1000 ≤ a.toNat * 4 ∧ a.toNat * 4 < 0x1000 + s.cfg.bufBytes) ∨
    memKept s t

theorem exec_frame {i : Instr} {s t : State} (h : exec i s = .next t) : CommandFrame i s t := by
  rcases exec_cases i s with ⟨e, he, -⟩ | ⟨qd, v, he⟩ | he | ⟨qa, qb, hi, he⟩ | ⟨qa, hi, he⟩ | ⟨qa, hi, he⟩ |
    ⟨n, hi, l, -, he⟩ | ⟨m, -, hi, he⟩ | ⟨m, n, l, -, -, hi, he⟩ <;> rw [he] at h
  case inl =>
    obtain rfl := raiseErr_next.1 h
    exact ⟨.inl ⟨rfl, rfl⟩, .inl rfl, .inl rfl, .inl (bufByte_congr rfl rfl)⟩
  all_goals obtain rfl := complete_next.1 h
  · exact ⟨.inl ⟨rfl, rfl⟩, .inl rfl, .inl rfl, .inl (bufByte_congr rfl rfl)⟩
  · exact ⟨.inl ⟨rfl, rfl⟩, .inl rfl, .inl rfl, .inl (bufByte_congr rfl rfl)⟩
  · exact ⟨.inl ⟨rfl, rfl⟩, .inr (.inl ⟨qa, qb, hi⟩), .inl rfl, .inl (bufByte_congr rfl rfl)⟩
  · exact ⟨.inl ⟨rfl, rfl⟩, .inr (.inr ⟨qa, hi⟩), .inl rfl, .inl (bufByte_congr rfl rfl)⟩
  · exact ⟨.inr ⟨qa, hi, rfl⟩, .inl rfl, .inl rfl, .inl (bufByte_congr rfl rfl)⟩
  · exact ⟨.inl ⟨rfl, rfl⟩, .inl rfl, .inr ⟨n, .inr (.inr hi)⟩, .inl (bufByte_congr rfl rfl)⟩
  · refine ⟨.inl ⟨rfl, rfl⟩, .inl rfl, .inl rfl, .inr (hi.imp_right ?_)⟩
    rintro ⟨off, ho⟩
    exact ⟨off, ho.imp_right .inl⟩
  · exact ⟨.inl ⟨rfl, rfl⟩, .inl rfl, .inr ⟨n, hi.imp_right .inl⟩, .inr (.inr ⟨n, .inr (.inr hi)⟩)⟩

theorem hostAct_frame (act : HostAction) (s : State) : HostFrame act s (hostAct act s) := by
  rcases hostAct_cases act s with ⟨hr, -⟩ | ⟨hz, ws, h⟩ | ⟨w, -, -, h⟩ | ⟨-, hz, h⟩ | ⟨q, -, h⟩ |
    ⟨a, d, ha, hb, hl, hu, h⟩
  case inl => exact ⟨.inl hr, .inl hr, .inl hr, .inl hr⟩
  all_goals rw [h]; refine ⟨.inr ⟨rfl, rfl⟩, .inr rfl, .inr rfl, .inr ?_⟩
  · exact .inr (bufByte_congr rfl rfl)
  · exact .inr (bufByte_congr rfl rfl)
  · exact .inr (bufByte_congr rfl rfl)
  · exact .inr (bufByte_congr rfl rfl)
  · exact .inl ⟨a, d, ha, hb, hl, hu⟩

/-- A step is an idle pass or an illegal word's error, which leave the key, `FLAGS`, `LEN` and `BUF` as they were, or a
command with its frame, or a host action with its own. -/
theorem step_frame {s t : State} (h : step s = .next t) :
    (keyKept s t ∧ t.flags = s.flags ∧ t.len = s.len ∧ memKept s t) ∨
      (∃ i, completes i s ∧ CommandFrame i s t) ∨ ∃ act, hostActs act s ∧ HostFrame act s t := by
  obtain ⟨ts, rfl | ⟨i, hi, he⟩ | he | ⟨act, ha, rfl⟩⟩ := step_next_cases h
  · exact .inl ⟨⟨rfl, rfl⟩, rfl, rfl, bufByte_congr rfl rfl⟩
  · have f := exec_frame he
    exact .inr (.inl ⟨i, hi, f.key, f.flags, f.len, f.mem⟩)
  · obtain rfl := raiseErr_next.1 he
    exact .inl ⟨⟨rfl, rfl⟩, rfl, rfl, bufByte_congr rfl rfl⟩
  · have f := hostAct_frame act { s with turns := ts }
    exact .inr (.inr ⟨act, ha, f.key, f.flags, f.len, f.mem⟩)

/-! ### Which steps can change what -/

/-- A step keeps the key, or is a `Reset`, or is a `SETKEY`, after which `KEYVALID` is 1. -/
theorem step_key {s t : State} (h : step s = .next t) :
    keyKept s t ∨ hostActs .reset s ∨ ∃ qa, completes (.setkey qa) s ∧ t.keyValid = true := by
  rcases step_frame h with ⟨hk, -⟩ | ⟨i, hi, f⟩ | ⟨act, ha, f⟩
  · exact .inl hk
  · rcases f.key with hk | ⟨qa, rfl, hv⟩
    · exact .inl hk
    · exact .inr (.inr ⟨qa, hi, hv⟩)
  · rcases f.key with rfl | hk
    · exact .inr (.inl ha)
    · exact .inl hk

/-- Settles O23: a step that keeps neither the key nor `KEYVALID` is a `Reset` or a `SETKEY`, and `SETKEY` leaves
`KEYVALID` at 1. -/
theorem onlySetkeyAndResetChangeTheKey : Obligations.OnlySetkeyAndResetChangeTheKey := by
  intro s t h
  rcases step_key h with ⟨hk, hv⟩ | hr | ⟨qa, hc, hv⟩
  · exact ⟨fun hne => (hne.elim (· hk) (· hv)).elim, fun h1 h0 => by simp [hv, h1] at h0⟩
  · exact ⟨fun _ => .inl hr, fun _ _ => hr⟩
  · exact ⟨fun _ => .inr ⟨qa, hc⟩, fun _ h0 => by simp [hv] at h0⟩

/-- Settles O24: the frame of the command or of the host action names what could have changed `FLAGS` or `LEN`. -/
theorem onlyNamedCommandsChangeFlagsAndLen : Obligations.OnlyNamedCommandsChangeFlagsAndLen := by
  intro s t h
  rcases step_frame h with ⟨-, hf, hl, -⟩ | ⟨i, hi, f⟩ | ⟨act, ha, f⟩
  · exact ⟨fun hne => absurd hf hne, fun hne => absurd hl hne⟩
  · refine ⟨fun hne => .inr ?_, fun hne => .inr ?_⟩
    · rcases f.flags.resolve_left hne with ⟨qa, qb, rfl⟩ | ⟨qa, rfl⟩
      · exact .inl ⟨qa, qb, hi⟩
      · exact .inr ⟨qa, hi⟩
    · obtain ⟨n, hn⟩ := f.len.resolve_left hne
      exact ⟨n, by rcases hn with rfl | rfl | rfl | rfl <;> simp [hi]⟩
  · exact ⟨fun hne => .inl (f.flags.resolve_right hne ▸ ha), fun hne => .inl (f.len.resolve_right hne ▸ ha)⟩

/-- Settles O25: a byte that reads otherwise refutes `memKept`, so the frame leaves the named actions only. -/
theorem onlyNamedActionsChangeTheBuffer : Obligations.OnlyNamedActionsChangeTheBuffer := by
  rintro s t h ⟨a, ha⟩
  have changed : ¬memKept s t := fun hm => ha (hm a)
  rcases step_frame h with ⟨-, -, -, hm⟩ | ⟨i, hi, f⟩ | ⟨act, hact, f⟩
  · exact absurd hm changed
  · refine .inr (.inr ?_)
    rcases f.mem.resolve_left changed with ⟨qa, off, rfl⟩ | ⟨n, hn⟩
    · exact .inl ⟨qa, off, hi⟩
    · exact .inr ⟨n, by rcases hn with rfl | rfl | rfl | rfl <;> simp [hi]⟩
  · rcases f.mem with rfl | ⟨b, d, rfl, hb⟩ | hm
    · exact .inl hact
    · exact .inr (.inl ⟨b, d, hact, hb⟩)
    · exact absurd hm changed

end Sys2Proof.Machine
end

section
/-! PROOFS. The family 20_memory.md: what a host read returns and what a host write does at every address. An access
that the busy rule does not block reads or writes the target of its address, which the lemmas about `hostTarget` name;
a blocked one sets `HZ`. -/

namespace Sys2Proof.Machine

/-! ### Which accesses reach their target -/

theorem hostTarget_cmd {n : Nat} {a : HostAddr} (h : a.toNat * 4 = 0x0000) : hostTarget n a = .cmd := by
  simp [hostTarget, byteAddr, h]

/-- With `BUSY` 0, and at `STATUS`, the busy rule does not block an access (20_memory.md R71, R72). -/
theorem access_not_blocked {s : State} {a : HostAddr} (h : s.busy = false ∨ a.toNat * 4 = 0x0004) :
    ¬(s.busy = true ∧ hostTarget s.cfg.bufBytes a ≠ .status) := by
  rintro ⟨hb, ht⟩
  rcases h with h | h
  · simp [h] at hb
  · exact ht (hostTarget_status_iff.2 h)

/-- While busy, the busy rule blocks every access but one to `STATUS` (20_memory.md R73). -/
theorem access_blocked {s : State} {a : HostAddr} (hb : s.busy = true) (h : a.toNat * 4 ≠ 0x0004) :
    s.busy = true ∧ hostTarget s.cfg.bufBytes a ≠ .status :=
  ⟨hb, fun ht => h (hostTarget_status_iff.1 ht)⟩

theorem hostRead_of_not_blocked {s : State} {a : HostAddr} (h : s.busy = false ∨ a.toNat * 4 = 0x0004) :
    hostRead a s = (readTarget (hostTarget s.cfg.bufBytes a) s, s) :=
  if_neg (access_not_blocked h)

theorem hostWrite_of_not_blocked {s : State} {a : HostAddr} (h : s.busy = false ∨ a.toNat * 4 = 0x0004) (d : U32) :
    hostWrite a d s = writeTarget (hostTarget s.cfg.bufBytes a) d s :=
  if_neg (access_not_blocked h)

/-- Settles O13: the access is blocked, so a read answers 0 and both set `HZ`. -/
theorem busyAccessOnlySetsHz : Obligations.BusyAccessOnlySetsHz := fun _ _ hb h =>
  ⟨if_pos (access_blocked hb h), fun _ => if_pos (access_blocked hb h)⟩

/-! ### Reads -/

/-- Settles O15: the read is that of its address's target, and each clause names the target by its address. -/
theorem hostReadFollowsTheAddressMap : Obligations.HostReadFollowsTheAddressMap := by
  intro s a h
  simp only [hostRead_of_not_blocked h]
  refine ⟨trivial, fun hb => ?_, fun hb => ?_, fun hb => ?_, fun hb => ?_, fun r w hw hb => ?_, fun hl hu => ?_,
    fun hb => ?_⟩
  · rw [hostTarget_cmd hb, readTarget]
  · rw [hostTarget_status_iff.2 hb, readTarget, statusWord_toNat]
  · rw [hostTarget_flags hb, readTarget, flagsWord_toNat]
  · rw [hostTarget_len hb, readTarget]
  · have hn : (BitVec.ofNat 2 w).toNat = w := Nat.mod_eq_of_lt hw
    rw [hostTarget_qWord (r := r) (w := BitVec.ofNat 2 w) (by rw [hn, hb]), readTarget, word32_toNat, hn]
  · rw [hostTarget_window hl hu, readTarget, bufRead32_eq]
  · rw [hostTarget_reserved hb, readTarget]

/-! ### Writes -/

/-- The bytes of a window write read back as its word (20_memory.md R74). -/
theorem wordOf_bufWrite32 (a : Nat) (d : U32) (s : State) : wordOf (bufByte (bufWrite32 a d s)) a = d :=
  wordOf_memWrite s.resets s.buf a d

theorem bufWrite32_memKeptBut (a : Nat) (d : U32) (s : State) : memKeptBut a 4 s (bufWrite32 a d s) :=
  memByte_memWrite_outside s.resets s.buf a 4 d.toNat

/-- Settles O16: the write is that of its address's target: an issue attempt, the write-1-to-clear bits, one word of a
register, four bytes of the window, or nothing. -/
theorem hostWriteFollowsTheAddressMap : Obligations.HostWriteFollowsTheAddressMap := by
  intro s a d h
  simp only [hostWrite_of_not_blocked h]
  refine ⟨fun hb => ?_, fun hb => ?_, fun r w hb => ?_, fun hl hu => ?_, fun hb => ?_⟩
  · rw [hostTarget_cmd hb, writeTarget, issue]
  · have hc : (d.getLsbD 1 = true ∧ s.busy = false) ↔ (d.getLsbD 1 && !s.busy) = true := by simp
    rw [hostTarget_status_iff.2 hb, writeTarget, writeStatus_eq]
    simp only [hc, Bool.if_false_left, Bool.decide_eq_true, Bool.and_comm]
  · rw [hostTarget_qWord hb, writeTarget]
    exact ⟨_, rfl, word32_setWord32_self _ _ _, fun w' hne => word32_setWord32_of_ne hne _ _⟩
  · rw [hostTarget_window hl hu, writeTarget]
    exact ⟨_, rfl, wordOf_bufWrite32 _ _ _, bufWrite32_memKeptBut _ _ _⟩
  · rcases hb with hb | hb | hb
    · rw [hostTarget_flags hb, writeTarget]
    · rw [hostTarget_len hb, writeTarget]
    · rw [hostTarget_reserved hb, writeTarget]

end Sys2Proof.Machine
end

section
/-! PROOFS. The family 30_encoding.md. A row of the opcode table is read field by field: a word matches it exactly when
its `op` is the row's and `Fields.Legal` holds, the rule R97 said positively over the `uses` column of R96. The decoder,
the encoder and the illegal words follow from that one equivalence. -/

namespace Sys2Proof

/-! ### A word and its fields -/

/-- A word is its six fields side by side (30_encoding.md R91). -/
theorem append_fieldsOf (c : U32) :
    (fieldsOf c).op ++ (fieldsOf c).qd ++ (fieldsOf c).qa ++ (fieldsOf c).qb ++ (fieldsOf c).z ++ (fieldsOf c).imm =
      c := by
  simp (disch := decide) only [fieldsOf, BitVec.extractLsb'_append_extractLsb'_eq_extractLsb']
  exact BitVec.extractLsb'_eq_self

theorem fieldsOf_injective : Function.Injective fieldsOf := fun c d h => by
  rw [← append_fieldsOf c, h, append_fieldsOf]

/-- Field by field AND. -/
def Fields.and (f g : Fields) : Fields :=
  ⟨f.op &&& g.op, f.qd &&& g.qd, f.qa &&& g.qa, f.qb &&& g.qb, f.z &&& g.z, f.imm &&& g.imm⟩

theorem fieldsOf_and (c d : U32) : fieldsOf (c &&& d) = (fieldsOf c).and (fieldsOf d) := by
  simp only [fieldsOf, Fields.and, BitVec.extractLsb'_and]

/-! ### The `uses` column of the opcode table (30_encoding.md R96) -/

/-- The listed opcodes. -/
def opcodes : List U8 :=
  [0x00#8, 0x10#8, 0x11#8, 0x12#8, 0x13#8, 0x14#8, 0x15#8, 0x16#8, 0x17#8, 0x20#8, 0x21#8, 0x30#8, 0x31#8, 0x40#8,
    0x41#8, 0x42#8, 0x43#8, 0x44#8, 0x45#8, 0x46#8]

/-- The opcodes of the commands that use `qd`. -/
def usesQd : List U8 := [0x10#8, 0x11#8, 0x12#8, 0x13#8, 0x14#8, 0x15#8, 0x20#8, 0x21#8, 0x30#8]

/-- The opcodes of the commands that use `qa`. -/
def usesQa : List U8 := [0x10#8, 0x12#8, 0x13#8, 0x14#8, 0x15#8, 0x16#8, 0x17#8, 0x20#8, 0x21#8, 0x31#8, 0x40#8]

/-- The opcodes of the commands that use `qb`. -/
def usesQb : List U8 := [0x12#8, 0x13#8, 0x16#8, 0x20#8, 0x21#8]

/-- The opcodes of the commands that use `imm`. -/
def usesImm : List U8 := [0x11#8, 0x30#8, 0x31#8, 0x41#8, 0x42#8, 0x43#8, 0x44#8, 0x45#8, 0x46#8]

/-- The fields of the words that are not illegal: R97 said positively. -/
def Fields.Legal (f : Fields) : Prop :=
  f.op ∈ opcodes ∧ f.z = 0#2 ∧ (f.op ∉ usesQd → f.qd = 0#2) ∧ (f.op ∉ usesQa → f.qa = 0#2) ∧
    (f.op ∉ usesQb → f.qb = 0#2) ∧ (f.op ∉ usesImm → f.imm = 0#16) ∧ (f.op = 0x11#8 → f.imm.toNat ≤ 3)

/-- The fields of the mask of the row with opcode `op`: a used field is free, but for the upper 14 bits of the id of
`LDC` (R93). -/
def maskFields (op : U8) : Fields :=
  { op := BitVec.allOnes 8
    qd := if op ∈ usesQd then 0#2 else BitVec.allOnes 2
    qa := if op ∈ usesQa then 0#2 else BitVec.allOnes 2
    qb := if op ∈ usesQb then 0#2 else BitVec.allOnes 2
    z := BitVec.allOnes 2
    imm := if op = 0x11#8 then BitVec.allOnes 16 <<< 2 else if op ∈ usesImm then 0#16 else BitVec.allOnes 16 }

/-! ### The rows (30_encoding.md R96) -/

/-- The opcode of a row. -/
def Row.code (r : Row) : U8 := (fieldsOf r.pattern).op

theorem map_code_opcodeTable : opcodeTable.map Row.code = opcodes := by decide

theorem fieldsOf_pattern : ∀ r ∈ opcodeTable, fieldsOf r.pattern = ⟨r.code, 0#2, 0#2, 0#2, 0#2, 0#16⟩ := by decide

theorem fieldsOf_mask : ∀ r ∈ opcodeTable, fieldsOf r.mask = maskFields r.code := by decide

theorem row_eq_of_code_eq : ∀ r₁ ∈ opcodeTable, ∀ r₂ ∈ opcodeTable, r₁.code = r₂.code → r₁ = r₂ := by decide

/-- A row's opcode is that of every command built from it. -/
theorem code_eq_opByte_build (f : Fields) : ∀ r ∈ opcodeTable, r.code = Laws.EncodedOpcode.opByte (build r.op f) := by
  simp [opcodeTable, Row.code, fieldsOf, build, Laws.EncodedOpcode.opByte]

theorem exists_row_of_op (o : Op) : ∃ r ∈ opcodeTable, r.op = o := by
  cases o <;> decide

/-! ### Matching a row is being legal with its opcode -/

/-- A field masked by a row is 0 when the row leaves it free or the field is 0. -/
theorem and_ite_eq_zero_iff {n : Nat} (x : BitVec n) (p : Prop) [Decidable p] :
    x &&& (if p then 0#n else BitVec.allOnes n) = 0#n ↔ (¬p → x = 0#n) := by
  split <;> simp [*]

/-- The mask of an id of `LDC` leaves 0 exactly from the legal ids (30_encoding.md R93). -/
theorem and_idMask_eq_zero_iff (x : U16) : x &&& BitVec.allOnes 16 <<< 2 = 0#16 ↔ x.toNat ≤ 3 := by
  rw [← BitVec.shiftLeft_ushiftRight, ← BitVec.toNat_inj, BitVec.toNat_shiftLeft, BitVec.toNat_ushiftRight,
    Nat.shiftLeft_eq, Nat.shiftRight_eq_div_pow]
  have := x.isLt
  simp
  omega

theorem and_maskFields_eq_iff {f : Fields} {op : U8} (h : op ∈ opcodes) :
    f.and (maskFields op) = ⟨op, 0#2, 0#2, 0#2, 0#2, 0#16⟩ ↔ f.op = op ∧ f.Legal := by
  have himm : f.imm &&& (maskFields op).imm = 0#16 ↔
      (op ∉ usesImm → f.imm = 0#16) ∧ (op = 0x11#8 → f.imm.toNat ≤ 3) := by
    by_cases hl : op = 0x11#8
    · subst hl
      rw [maskFields, if_pos rfl, and_idMask_eq_zero_iff]
      simp [usesImm]
    · simp only [maskFields, if_neg hl, and_ite_eq_zero_iff]
      simp [hl]
  simp only [Fields.and, Fields.mk.injEq, himm]
  simp only [maskFields, and_ite_eq_zero_iff, BitVec.and_allOnes]
  constructor
  · rintro ⟨rfl, hqd, hqa, hqb, hz, hi, hid⟩
    exact ⟨rfl, h, hz, hqd, hqa, hqb, hi, hid⟩
  · rintro ⟨rfl, -, hz, hqd, hqa, hqb, hi, hid⟩
    exact ⟨rfl, hqd, hqa, hqb, hz, hi, hid⟩

/-- The one reading of R96 that the rest rests on. -/
theorem and_mask_eq_pattern_iff {r : Row} (hr : r ∈ opcodeTable) (c : U32) :
    c &&& r.mask = r.pattern ↔ (fieldsOf c).op = r.code ∧ (fieldsOf c).Legal := by
  have hc : r.code ∈ opcodes := map_code_opcodeTable ▸ List.mem_map_of_mem hr
  rw [← fieldsOf_injective.eq_iff, fieldsOf_and, fieldsOf_mask r hr, fieldsOf_pattern r hr, and_maskFields_eq_iff hc]

theorem row_unique {c : U32} {r₁ r₂ : Row} (h₁ : r₁ ∈ opcodeTable) (h₂ : r₂ ∈ opcodeTable)
    (m₁ : c &&& r₁.mask = r₁.pattern) (m₂ : c &&& r₂.mask = r₂.pattern) : r₁ = r₂ :=
  row_eq_of_code_eq r₁ h₁ r₂ h₂ <|
    ((and_mask_eq_pattern_iff h₁ c).1 m₁).1.symm.trans ((and_mask_eq_pattern_iff h₂ c).1 m₂).1

theorem exists_row_iff_legal (c : U32) : (∃ r ∈ opcodeTable, c &&& r.mask = r.pattern) ↔ (fieldsOf c).Legal := by
  constructor
  · rintro ⟨r, hr, hm⟩
    exact ((and_mask_eq_pattern_iff hr c).1 hm).2
  · intro h
    obtain ⟨r, hr, hc⟩ := List.mem_map.1 (map_code_opcodeTable ▸ h.1)
    exact ⟨r, hr, (and_mask_eq_pattern_iff hr c).2 ⟨hc.symm, h⟩⟩

/-! ### The decoder (30_encoding.md R102) -/

/-- The first matching row is the only one, so it is the row that decides. -/
theorem decode_eq_command_iff (c : U32) (i : Instr) :
    decode c = .command i ↔ ∃ r ∈ opcodeTable, c &&& r.mask = r.pattern ∧ i = build r.op (fieldsOf c) := by
  cases hf : opcodeTable.find? (rowMatches c) with
  | none =>
    have hno : ∀ r ∈ opcodeTable, c &&& r.mask ≠ r.pattern := by simpa [rowMatches] using hf
    simp only [decode, hf, reduceCtorEq, false_iff]
    rintro ⟨r, hr, hm, -⟩
    exact hno r hr hm
  | some r =>
    have hr : r ∈ opcodeTable := List.mem_of_find?_eq_some hf
    have hm : c &&& r.mask = r.pattern := by simpa [rowMatches] using List.find?_some hf
    simp only [decode, hf, Decoded.command.injEq]
    constructor
    · rintro rfl
      exact ⟨r, hr, hm, rfl⟩
    · rintro ⟨r', hr', hm', rfl⟩
      rw [row_unique hr hr' hm hm']

/-- Settles O6: the row that decides is a matching one, and no word matches two. -/
theorem decodeFollowsTheOpcodeTable : Obligations.DecodeFollowsTheOpcodeTable := fun c =>
  ⟨decode_eq_command_iff c, fun _ h₁ _ h₂ => row_unique h₁ h₂⟩

theorem decode_eq_illegal_iff (c : U32) : (∃ why, decode c = .illegal why) ↔ ¬(fieldsOf c).Legal := by
  have hcommand : (∃ i, decode c = .command i) ↔ (fieldsOf c).Legal := by
    rw [← exists_row_iff_legal]
    constructor
    · rintro ⟨i, hd⟩
      obtain ⟨r, hr, hm, -⟩ := (decode_eq_command_iff c i).1 hd
      exact ⟨r, hr, hm⟩
    · rintro ⟨r, hr, hm⟩
      exact ⟨_, (decode_eq_command_iff c _).2 ⟨r, hr, hm, rfl⟩⟩
  rw [← hcommand]
  cases decode c with
  | command i => exact ⟨fun ⟨_, h⟩ => Decoded.noConfusion h, fun h => absurd ⟨i, rfl⟩ h⟩
  | illegal why => exact ⟨fun _ ⟨_, h⟩ => Decoded.noConfusion h, fun _ => ⟨why, rfl⟩⟩

/-! ### The encoder (30_encoding.md R102) -/

theorem fieldsOf_encode_op (i : Instr) : (fieldsOf (encode i)).op = Laws.EncodedOpcode.opByte i := by
  cases i <;> simp [encode, Laws.EncodedOpcode.opByte]

/-- The unused fields are encoded as 0, and the id of `LDC` is the one operand to check. -/
theorem fieldsOf_encode_legal {i : Instr} (h : wellFormed i = true) : (fieldsOf (encode i)).Legal := by
  cases i with
  | ldc qd id =>
    have hid : id.toNat ≤ 3 := of_decide_eq_true h
    simp [encode, Fields.Legal, opcodes, usesQd, usesQa, usesQb, usesImm, hid]
  | _ => simp [encode, Fields.Legal, opcodes, usesQd, usesQa, usesQb, usesImm]

/-- The mnemonic of a command. -/
def Instr.op : Instr → Op
  | .nop => .nop
  | .mov _ _ => .mov
  | .ldc _ _ => .ldc
  | .add _ _ _ => .add
  | .sub _ _ _ => .sub
  | .shl1 _ _ => .shl1
  | .shr1 _ _ => .shr1
  | .cmp _ _ => .cmp
  | .test _ => .test
  | .mulmod _ _ _ => .mulmod
  | .powmod _ _ _ => .powmod
  | .ldq _ _ => .ldq
  | .stq _ _ => .stq
  | .setkey _ => .setkey
  | .encblk _ => .encblk
  | .decblk _ => .decblk
  | .enc _ => .enc
  | .dec _ => .dec
  | .elen _ => .elen
  | .dlen _ => .dlen

/-- The encoded operands read back. -/
theorem build_op_encode (i : Instr) : build i.op (fieldsOf (encode i)) = i := by
  cases i <;> simp [Instr.op, build, encode]

/-- Settles O4: the command's own row matches its word, by opcode and legality, and builds the command back. -/
theorem decodeOfEncodeIsTheCommand : Obligations.DecodeOfEncodeIsTheCommand := by
  intro i hi
  obtain ⟨r, hr, ho⟩ := exists_row_of_op i.op
  have hb : build r.op (fieldsOf (encode i)) = i := ho ▸ build_op_encode i
  have hop : (fieldsOf (encode i)).op = r.code := by
    rw [fieldsOf_encode_op, code_eq_opByte_build (fieldsOf (encode i)) r hr, hb]
  have hm := (and_mask_eq_pattern_iff hr (encode i)).2 ⟨hop, fieldsOf_encode_legal hi⟩
  exact (decode_eq_command_iff _ _).2 ⟨r, hr, hm, hb.symm⟩

/-- Encoding the command of legal fields puts each field back, the unused ones being 0. -/
theorem encode_build {o : Op} {f : Fields} (hop : f.op = Laws.EncodedOpcode.opByte (build o f)) (h : f.Legal) :
    encode (build o f) = assemble f.op f.qd f.qa f.qb f.imm := by
  obtain ⟨-, -, hqd, hqa, hqb, himm, -⟩ := h
  cases o <;>
    simp_all [build, encode, Laws.EncodedOpcode.opByte, usesQd, usesQa, usesQb, usesImm]

theorem wellFormed_build {o : Op} {f : Fields} (hop : f.op = Laws.EncodedOpcode.opByte (build o f)) (h : f.Legal) :
    wellFormed (build o f) = true := by
  obtain ⟨-, -, -, -, -, -, hid⟩ := h
  cases o with
  | ldc => exact decide_eq_true (hid hop)
  | _ => rfl

theorem assemble_fieldsOf {c : U32} (hz : (fieldsOf c).z = 0#2) :
    assemble (fieldsOf c).op (fieldsOf c).qd (fieldsOf c).qa (fieldsOf c).qb (fieldsOf c).imm = c := by
  rw [assemble, ← hz, append_fieldsOf]

/-- Settles O5: the word matches the row its command is built from, so its fields are legal and are put back. -/
theorem encodeOfDecodeIsTheWord : Obligations.EncodeOfDecodeIsTheWord := by
  intro c i hd
  obtain ⟨r, hr, hm, rfl⟩ := (decode_eq_command_iff c i).1 hd
  obtain ⟨hop, hlegal⟩ := (and_mask_eq_pattern_iff hr c).1 hm
  rw [code_eq_opByte_build (fieldsOf c) r hr] at hop
  exact ⟨(encode_build hop hlegal).trans (assemble_fieldsOf hlegal.2.1), wellFormed_build hop hlegal⟩

/-- Settles O3: the words are decoded by the model. -/
theorem specCommandWordsDecode : Obligations.SpecCommandWordsDecode := by
  unfold Obligations.SpecCommandWordsDecode
  decide

end Sys2Proof

namespace Sys2Proof.Machine

/-! ### The end of an illegal word -/

/-- An error answers a state that differs in the latch and `BUSY` only (60_exceptions.md R244). -/
theorem raiseErr_failed (e : ErrCode) (s : State) : ∃ t, raiseErr e s = .next t ∧ failed (errBits e) s t :=
  ⟨_, rfl, rfl, rfl, rfl, ⟨rfl, rfl, rfl, rfl, rfl, rfl⟩, fun _ => rfl, ⟨rfl, rfl⟩, rfl, rfl, fun _ => rfl⟩

theorem completion_illegal {s : State} {why : Illegal} (h : decode s.cmdr = .illegal why) :
    completion s = raiseErr .illegal s := by
  simp [completion, fetch, h]

/-- Issue looks at `BUSY` and `ERR`, not at the word (60_exceptions.md R240). -/
theorem hostWrite_cmdAddr_issues {s : State} (hb : s.busy = false) (he : s.err = false) (c : U32) :
    hostWrite cmdAddr c s = { s with cmdr := c, busy := true } := by
  simp [hostWrite_of_not_blocked (.inl hb), cmdAddr, writeTarget, issue, he]

/-- Settles O7: the illegal words are those whose fields are not legal, clause by clause; their end is the decoder's
rejection, which the completion step turns into `E_ILLEGAL`. -/
theorem illegalWordsAndTheirEnd : Obligations.IllegalWordsAndTheirEnd := by
  intro c
  refine ⟨?_, ?_⟩
  · simp only [decode_eq_illegal_iff, Fields.Legal, opcodes, usesQd, usesQa, usesQb, usesImm,
      Classical.not_and_iff_not_or_not, Classical.not_imp, Nat.not_le, ne_eq]
  · rintro ⟨why, hd⟩ s
    refine ⟨?_, fun hb he => hostWrite_cmdAddr_issues hb he c⟩
    rintro rfl
    rw [completion_illegal hd]
    exact raiseErr_failed .illegal s

/-! ### `SETQ` (30_encoding.md R100) -/

theorem writeQ_writeQ (r : QReg) (v v' : U128) (s : State) : writeQ r v (writeQ r v' s) = writeQ r v s := by
  cases r <;> rfl

/-- A host write of one word of `Q[r]`, at its turn, replaces that word (10_state.md R23; 20_memory.md R72). -/
theorem step_write_qAddr {s : State} {r : QReg} {w : BitVec 2} {d : U32} {ts : List Turn} (hb : s.busy = false)
    (ht : s.turns = .host (.write (qAddr r w) d) :: ts) :
    step s = .next (writeQ r (setWord32 (readQ r s) w d) { s with turns := ts }) := by
  have hw := hostWrite_of_not_blocked (s := { s with turns := ts }) (a := qAddr r w) (.inl hb) d
  rw [step_host ht, hostAct, hw, hostTarget_qAddr, writeTarget]
  rfl

/-- The same within a run, from a state whose `Q[r]` is `v`. -/
theorem runSteps_write_qAddr {s : State} (hb : s.busy = false) (r : QReg) (w : BitVec 2) (d : U32) (v : U128)
    (ts : List Turn) (n : Nat) :
    runSteps (n + 1) (writeQ r v { s with turns := .host (.write (qAddr r w) d) :: ts }) =
      runSteps n (writeQ r (setWord32 v w d) { s with turns := ts }) := by
  have hstep := step_write_qAddr (s := writeQ r v { s with turns := .host (.write (qAddr r w) d) :: ts }) hb rfl
  rw [runSteps_succ hstep, readQ_writeQ_self]
  exact congrArg (runSteps n) (writeQ_writeQ r _ v { s with turns := ts })

/-- The four words of `v`, word 0 first, replace any value by `v` (10_state.md R23). -/
theorem setWord32_four (x v : U128) :
    setWord32 (setWord32 (setWord32 (setWord32 x 0#2 (word32 v 0#2)) 1#2 (word32 v 1#2)) 2#2 (word32 v 2#2)) 3#2
      (word32 v 3#2) = v := by
  refine eq_of_word32 fun w => ?_
  rcases two_bits w with rfl | rfl | rfl | rfl
  · rw [word32_setWord32_of_ne (by decide), word32_setWord32_of_ne (by decide), word32_setWord32_of_ne (by decide),
      word32_setWord32_self]
  · rw [word32_setWord32_of_ne (by decide), word32_setWord32_of_ne (by decide), word32_setWord32_self]
  · rw [word32_setWord32_of_ne (by decide), word32_setWord32_self]
  · rw [word32_setWord32_self]

/-- Settles O17: each of the four steps replaces one word of the register, and together they replace all of it. -/
theorem setqLoadsTheRegister : Obligations.SetqLoadsTheRegister := by
  intro s r v ts hb ht
  have hs : s = writeQ r (readQ r s) { s with turns := setQTurns r v ++ ts } := by
    rw [← ht]
    exact (writeQ_readQ r s).symm
  calc runSteps 4 s
      = runSteps 4 (writeQ r (readQ r s) { s with turns := setQTurns r v ++ ts }) := congrArg _ hs
    _ = runSteps 0 (writeQ r v { s with turns := ts }) := by
      simp only [setQTurns, List.cons_append, List.nil_append, runSteps_write_qAddr hb, setWord32_four]
    _ = .next (writeQ r v { s with turns := ts }) := rfl

end Sys2Proof.Machine
end

section
/-! PROOFS. The family 40_uint128_arith.md. Each command ends in one of three ways, and each end is said once: success
that writes one register (`complete_writeQ_writesOnlyQ`), success that writes `FLAGS` (`complete_flags_frame`), or an
error (`raiseErr_failed`). What is left of a statement is the value written, which the closed forms of R120 to R126
give. -/

namespace Sys2Proof.Machine

/-! ### The ends of a command -/

/-- A success that writes one register writes that register only (60_exceptions.md R241). -/
theorem complete_writeQ_writesOnlyQ (qd : QReg) (v : U128) (s : State) :
    ∃ t, complete (writeQ qd v s) = .next t ∧ writesOnlyQ qd v s t := by
  refine ⟨_, rfl, ?success, ?value, ?others, ⟨rfl, rfl⟩, rfl, rfl, bufByte_congr rfl rfl⟩
  case success => exact ⟨rfl, rfl, rfl, rfl, rfl, rfl, rfl, rfl, rfl⟩
  case value => exact (readQ_congr rfl qd).trans (readQ_writeQ_self qd v s)
  case others => exact fun r hr => (readQ_congr rfl r).trans (readQ_writeQ_of_ne hr v s)

/-- A success that writes `FLAGS` writes nothing else (60_exceptions.md R241). -/
theorem complete_flags_frame (f : FlagBits) (s : State) :
    ∃ t, complete { s with flags := f } = .next t ∧ succeeded s t ∧ t.flags = f ∧ regsKept s t ∧ keyKept s t ∧
      t.len = s.len ∧ memKept s t := by
  refine ⟨_, rfl, ?success, rfl, readQ_congr rfl, ⟨rfl, rfl⟩, rfl, bufByte_congr rfl rfl⟩
  case success => exact ⟨rfl, rfl, rfl, rfl, rfl, rfl, rfl, rfl, rfl⟩

/-! ### `NOP`, `MOV`, `LDC` -/

/-- `NOP` alone has opcode 0 (30_encoding.md R96). -/
theorem eq_nop_of_opByte_eq_zero {i : Instr} (h : Laws.EncodedOpcode.opByte i = 0x00#8) : i = .nop := by
  cases i with
  | nop => rfl
  | _ => simp [Laws.EncodedOpcode.opByte] at h

/-- Settles O26: a legal word is the encoding of its command, and `NOP` is the command with opcode 0. -/
theorem nopOnlyCompletes : Obligations.NopOnlyCompletes := by
  refine ⟨fun _ => rfl, by decide, fun c i hd hop => ?_⟩
  obtain ⟨rfl, -⟩ := encodeOfDecodeIsTheWord c i hd
  rw [fieldsOf_encode_op] at hop
  obtain rfl := eq_nop_of_opByte_eq_zero hop
  exact ⟨by decide, rfl⟩

/-- Settles O27: the value written is the one read. -/
theorem movCopiesTheRegister : Obligations.MovCopiesTheRegister := fun qd qa s =>
  ⟨fieldsOf_encode_op _, complete_writeQ_writesOnlyQ qd (readQ qa s) s⟩

theorem constOf_eq_none {id : U16} (h : 3 < id.toNat) : constOf id = none := by
  have ne : ∀ k : U16, k.toNat ≤ 3 → id ≠ k := by
    rintro k hk rfl
    omega
  simp [constOf, ne]

/-- `LDC` loads what its id names, and fails when its id names nothing (R131). -/
theorem exec_ldc (qd : QReg) (id : U16) (s : State) :
    ∃ t, exec (.ldc qd id) s = .next t ∧ (∀ c, constOf id = some c → writesOnlyQ qd c s t) ∧
      (constOf id = none → failed 1#4 s t) := by
  cases h : constOf id with
  | some c =>
    obtain ⟨t, ht, hw⟩ := complete_writeQ_writesOnlyQ qd c s
    refine ⟨t, (execLdc_some h s).trans ht, ?_, nofun⟩
    rintro _ ⟨⟩
    exact hw
  | none =>
    obtain ⟨t, ht, hf⟩ := raiseErr_failed .illegal s
    exact ⟨t, (execLdc_none h s).trans ht, nofun, fun _ => hf⟩

/-- Settles O28: the four ids name the four constants, and no id above 3 names one. -/
theorem ldcLoadsTheConstant : Obligations.LdcLoadsTheConstant := by
  intro qd id s
  obtain ⟨t, ht, loads, fails⟩ := exec_ldc qd id s
  refine ⟨fieldsOf_encode_op _, t, ht, ?_, ?_, ?_, ?_, fun h => fails (constOf_eq_none h)⟩ <;> rintro rfl <;>
    exact loads _ (by decide)

/-! ### `ADD`, `SUB`, `SHL1`, `SHR1` -/

theorem add128_eq_ofNat (a b : U128) : add128 a b = BitVec.ofNat 128 ((a.toNat + b.toNat) % 2 ^ 128) := by
  rw [← add128_toNat, BitVec.ofNat_toNat, BitVec.setWidth_eq]

/-- The difference, or its complement to 2^128 where it is negative (R121). -/
theorem sub128_eq_ofNat (a b : U128) :
    sub128 a b =
      BitVec.ofNat 128 (if b.toNat ≤ a.toNat then a.toNat - b.toNat else a.toNat + 2 ^ 128 - b.toNat) := by
  have ha := a.isLt
  have hb := b.isLt
  apply BitVec.eq_of_toNat_eq
  rw [sub128_toNat, BitVec.toNat_ofNat]
  split <;> omega

theorem shl1_eq_ofNat (a : U128) : shl1 a = BitVec.ofNat 128 (2 * a.toNat % 2 ^ 128) := by
  rw [← shl1_toNat, BitVec.ofNat_toNat, BitVec.setWidth_eq]

theorem shr1_eq_ofNat (a : U128) : shr1 a = BitVec.ofNat 128 (a.toNat / 2) := by
  rw [← shr1_toNat, BitVec.ofNat_toNat, BitVec.setWidth_eq]

/-- Settles O29: the register written gets `Add128`, the sum modulo 2^128. -/
theorem addIsTheSumModulo : Obligations.AddIsTheSumModulo := by
  intro qd qa qb s
  rw [← add128_eq_ofNat]
  exact ⟨fieldsOf_encode_op _, complete_writeQ_writesOnlyQ qd _ s⟩

/-- Settles O30: the register written gets `Sub128`, the difference modulo 2^128. -/
theorem subIsTheDifferenceModulo : Obligations.SubIsTheDifferenceModulo := by
  intro qd qa qb s
  rw [← sub128_eq_ofNat]
  exact ⟨fieldsOf_encode_op _, complete_writeQ_writesOnlyQ qd _ s⟩

/-- Settles O31: the register written gets `Shl1`, the double modulo 2^128. -/
theorem shl1DoublesModulo : Obligations.Shl1DoublesModulo := by
  intro qd qa s
  rw [← shl1_eq_ofNat]
  exact ⟨fieldsOf_encode_op _, complete_writeQ_writesOnlyQ qd _ s⟩

/-- Settles O32: the register written gets `Shr1`, the half rounded down. -/
theorem shr1HalvesRoundingDown : Obligations.Shr1HalvesRoundingDown := by
  intro qd qa s
  rw [← shr1_eq_ofNat]
  exact ⟨fieldsOf_encode_op _, complete_writeQ_writesOnlyQ qd _ s⟩

/-! ### `CMP`, `TEST` -/

/-- The flags of a comparison are the unsigned order (R124, R136). -/
theorem compareFlags_eq (a b : U128) (f : FlagBits) :
    compareFlags a b f =
      { f with
        lt := decide (a.toNat < b.toNat)
        eq := decide (a.toNat = b.toNat)
        gt := decide (b.toNat < a.toNat) } := by
  rcases Nat.lt_trichotomy a.toNat b.toNat with h | h | h
  · have hc : compare128 a b = .lt := by rw [compare128_eq, if_pos h]
    simp only [compareFlags, hc, h, Nat.ne_of_lt h, Nat.lt_asymm h, reduceCtorEq, decide_true, decide_false]
  · have hc : compare128 a b = .eq := by rw [compare128_eq, if_neg (h ▸ Nat.lt_irrefl _), if_pos h]
    simp only [compareFlags, hc, h, Nat.lt_irrefl, reduceCtorEq, decide_true, decide_false]
  · have hc : compare128 a b = .gt := by rw [compare128_eq, if_neg (Nat.lt_asymm h), if_neg (Nat.ne_of_gt h)]
    simp only [compareFlags, hc, h, Nat.ne_of_gt h, Nat.lt_asymm h, reduceCtorEq, decide_true, decide_false]

theorem testFlags_eq (a : U128) (f : FlagBits) :
    testFlags a f = { f with z := decide (a.toNat = 0), odd := decide (a.toNat % 2 = 1) } := by
  rw [testFlags, isZero_eq, isOdd_eq]

/-- Settles O33: the flags written are those of the unsigned order. -/
theorem cmpSetsOneOfThreeFlags : Obligations.CmpSetsOneOfThreeFlags := by
  intro qa qb s
  rw [← compareFlags_eq]
  exact ⟨fieldsOf_encode_op _, complete_flags_frame _ s⟩

/-- Settles O34: the flags written are zero and odd as numbers. -/
theorem testSetsZeroAndOdd : Obligations.TestSetsZeroAndOdd := by
  intro qa s
  rw [← testFlags_eq]
  exact ⟨fieldsOf_encode_op _, complete_flags_frame _ s⟩

/-! ### The laws (R127) -/

/-- Halving first loses bit 0. -/
theorem shl1_shr1_toNat (a : U128) : (shl1 (shr1 a)).toNat = a.toNat - a.toNat % 2 := by
  have := a.isLt
  rw [shl1_toNat, shr1_toNat]
  omega

/-- Doubling first loses bit 127. -/
theorem shr1_shl1_toNat (a : U128) : (shr1 (shl1 a)).toNat = a.toNat % 2 ^ 127 := by
  rw [shr1_toNat, shl1_toNat]
  omega

/-- Settles O35: on their closed forms the functions obey the laws of addition and of shifts, which give the values for
all ones. -/
theorem uint128Laws : Obligations.Uint128Laws := by
  refine ⟨fun a b => ?_, shl1_shr1_toNat, shr1_shl1_toNat, fun a b => ?_, fun a b c => ?_, fun a => ?_, fun a ha => ?_⟩
  · rw [add128_eq, sub128_eq, BitVec.sub_add_cancel]
  · rw [add128_eq, add128_eq, BitVec.add_comm]
  · simp only [add128_eq, BitVec.add_assoc]
  · rw [sub128_eq, BitVec.sub_self]
  · rw [shl1_shr1_toNat, shr1_shl1_toNat, shl1_toNat, shr1_toNat, ha]
    decide

end Sys2Proof.Machine
end

section
/-! PROOFS. The family 41_uint128_serial.md. The 16-byte form of a value and the value of 16 bytes are inverse
(`fromBytes_toBytes`, `toBytes_ofNat_beValue`), which is what `LDQ` and `STQ` rest on. Each host codec encodes digit by
digit or group by group, and its decoder reads each digit and each group back. -/

namespace Sys2Proof.Machine

/-! ### The last elements of a list (R157, R159) -/

theorem lastN_of_length_le {α : Type} {n : Nat} {l : List α} (h : l.length ≤ n) : lastN n l = l := by
  rw [lastN, Nat.sub_eq_zero_of_le h, List.drop_zero]

theorem lastN_of_length_eq {α : Type} {n : Nat} {l : List α} (h : l.length = n) : lastN n l = l :=
  lastN_of_length_le (Nat.le_of_eq h)

theorem lastN_append_of_length_eq {α : Type} {n : Nat} {l : List α} (h : l.length = n) (front : List α) :
    lastN n (front ++ l) = l := by
  rw [lastN, List.length_append, h, Nat.add_sub_cancel, List.drop_left]

/-! ### The 16 bytes of a value (R150, R156, R157) -/

@[simp] theorem toBytes_length (v : U128) : (toBytes v).length = 16 := beBytes_length 16 v.toNat

/-- `MemWrite` and `ToBytes` take byte `k` by a shift, which is the bit field of 20_memory.md R62. -/
theorem ofNat_shiftRight_eq_byteOf128 (v : U128) (k : Nat) :
    BitVec.ofNat 8 (v.toNat >>> (8 * (16 - 1 - k))) = byteOf128 v k := by
  rw [byteOf128, BitVec.extractLsb', show 8 * (16 - 1 - k) = 120 - 8 * k by omega]

theorem toBytes_getElem? (v : U128) {k : Nat} (h : k < 16) : (toBytes v)[k]? = some (byteOf128 v k) := by
  have hk : k < (beBytes 16 v.toNat).length := by rwa [beBytes_length]
  rw [toBytes, List.getElem?_eq_getElem hk, beBytes_getElem, ofNat_shiftRight_eq_byteOf128]

theorem ofNat_toNat_mod (v : U128) : BitVec.ofNat 128 (v.toNat % 2 ^ 128) = v := by
  rw [Nat.mod_eq_of_lt v.isLt, BitVec.ofNat_toNat, BitVec.setWidth_eq]

/-- The bytes of a value determine it. -/
theorem fromBytes_toBytes (v : U128) : fromBytes (toBytes v) = v := by
  rw [fromBytes, lastN_of_length_eq (toBytes_length v), toBytes, beValue_beBytes]
  exact ofNat_toNat_mod v

/-- Any 16 bytes are those of their value. -/
theorem toBytes_ofNat_beValue {bs : List U8} (h : bs.length = 16) : toBytes (BitVec.ofNat 128 (beValue bs)) = bs := by
  have hlt : beValue bs < 2 ^ 128 := by
    have := beValue_lt bs
    rwa [h] at this
  rw [toBytes, BitVec.toNat_ofNat, Nat.mod_eq_of_lt hlt, ← h, beBytes_beValue]

theorem eq_of_byteOf128 {v w : U128} (h : ∀ k, k < 16 → byteOf128 v k = byteOf128 w k) : v = w := by
  have hb : toBytes v = toBytes w := by
    refine List.ext_getElem? fun k => ?_
    by_cases hk : k < 16
    · rw [toBytes_getElem? v hk, toBytes_getElem? w hk, h k hk]
    · rw [List.getElem?_eq_none (by simpa using hk), List.getElem?_eq_none (by simpa using hk)]
  rw [← fromBytes_toBytes v, hb, fromBytes_toBytes]

/-! ### `LDQ` and `STQ` (R152 to R154) -/

theorem inRange_eq_true {s : State} {a n : Nat} (h : a + n ≤ s.cfg.bufBytes) : inRange s a n = true :=
  decide_eq_true h

theorem inRange_eq_false {s : State} {a n : Nat} (h : s.cfg.bufBytes < a + n) : inRange s a n = false :=
  decide_eq_false (Nat.not_le_of_lt h)

/-- Byte `k` of the value `MemRead(a, 16)` is `BUF[a + k]` (20_memory.md R62). -/
theorem byteOf128_bufRead128 (s : State) (a : Nat) {k : Nat} (h : k < 16) :
    byteOf128 (bufRead128 s a) k = bufByte s (a + k) := by
  have hlen := memBytes_length s.resets s.buf a 16
  have hk : k < (memBytes s.resets s.buf a 16).length := by rwa [hlen]
  apply Option.some.inj
  rw [← toBytes_getElem? _ h, bufRead128, memRead, toBytes_ofNat_beValue hlen, List.getElem?_eq_getElem hk,
    memBytes_getElem, bufByte]

/-- `MemWrite(a, 16, v)` puts byte `k` of `v` at `a + k` (20_memory.md R62). -/
theorem bufByte_bufWrite128_inside (a : Nat) (v : U128) (s : State) {k : Nat} (h : k < 16) :
    bufByte (bufWrite128 a v s) (a + k) = byteOf128 v k := by
  rw [bufByte_eq, bufWrite128_resets, bufWrite128_buf, memByte_memWrite_inside _ _ _ _ _ _ h,
    ofNat_shiftRight_eq_byteOf128]

theorem bufWrite128_memKeptBut (a : Nat) (v : U128) (s : State) : memKeptBut a 16 s (bufWrite128 a v s) := by
  intro x hx
  rw [bufByte_eq, bufByte_eq, bufWrite128_resets, bufWrite128_buf, memByte_memWrite_outside _ _ _ _ _ _ hx]

/-- A success that writes 16 bytes writes those bytes only (60_exceptions.md R241). -/
theorem complete_bufWrite128_frame (a : Nat) (v : U128) (s : State) :
    ∃ t, complete (bufWrite128 a v s) = .next t ∧ succeeded s t ∧
      (∀ k, k < 16 → bufByte t (a + k) = byteOf128 v k) ∧ memKeptBut a 16 s t ∧ regsKept s t ∧ keyKept s t ∧
      t.flags = s.flags ∧ t.len = s.len := by
  have hbytes : ∀ x, bufByte { bufWrite128 a v s with busy := false } x = bufByte (bufWrite128 a v s) x := fun x => by
    rw [bufByte_eq, bufByte_eq]
  refine ⟨{ bufWrite128 a v s with busy := false }, ?next, ?success, fun k hk => ?inside, fun x hx => ?outside,
    ?registers, ?key, ?flags, ?len⟩
  case next => rw [complete]
  case success => simp [succeeded, portKept]
  case inside => rw [hbytes, bufByte_bufWrite128_inside a v s hk]
  case outside => rw [hbytes, bufWrite128_memKeptBut a v s x hx]
  case registers => exact fun r => readQ_congr (by simp) r
  case key => simp [keyKept]
  case flags => simp
  case len => simp

/-- Settles O45: the value written to the register is `MemRead(off, 16)`. -/
theorem ldqLoadsSixteenBytes : Obligations.LdqLoadsSixteenBytes := by
  refine fun qd off s => ⟨fieldsOf_encode_op _, fun h => ?_, fun h => ?_⟩
  · obtain ⟨t, ht, hw⟩ := complete_writeQ_writesOnlyQ qd (bufRead128 s off.toNat) s
    exact ⟨t, _, (execLdq_inside (inRange_eq_true h) qd).trans ht, hw, fun k => byteOf128_bufRead128 s off.toNat⟩
  · obtain ⟨t, ht, hf⟩ := raiseErr_failed .range s
    exact ⟨t, (execLdq_outside (inRange_eq_false h) qd).trans ht, hf⟩

/-- Settles O46: the bytes written are `MemWrite(off, 16, Q[qa])`, and the write touches nothing else. -/
theorem stqStoresSixteenBytes : Obligations.StqStoresSixteenBytes := by
  refine fun qa off s => ⟨fieldsOf_encode_op _, fun h => ?_, fun h => ?_⟩
  · obtain ⟨t, ht, hframe⟩ := complete_bufWrite128_frame off.toNat (readQ qa s) s
    exact ⟨t, (execStq_inside (inRange_eq_true h) qa).trans ht, hframe⟩
  · obtain ⟨t, ht, hf⟩ := raiseErr_failed .range s
    exact ⟨t, (execStq_outside (inRange_eq_false h) qa).trans ht, hf⟩

/-- Settles O47 from the two commands' statements: the loaded value has the bytes stored, and the bytes stored are those
of the loaded value. -/
theorem storeAndLoadAreInverse : Obligations.StoreAndLoadAreInverse := by
  refine fun q q' off s h => ⟨?storeLoad, ?loadStore⟩
  case storeLoad =>
    obtain ⟨t, ht, ⟨-, -, -, -, -, hcfg, -⟩, hin, -⟩ := (stqStoresSixteenBytes q off s).2.1 h
    obtain ⟨u, v, hu, ⟨-, hv, -⟩, hbytes⟩ := (ldqLoadsSixteenBytes q' off t).2.1 (hcfg ▸ h)
    refine ⟨t, u, ht, hu, hv.trans (eq_of_byteOf128 fun k hk => ?_)⟩
    rw [hbytes k hk, hin k hk]
  case loadStore =>
    obtain ⟨t, v, ht, ⟨⟨-, -, -, -, -, hcfg, -⟩, hv, -, -, -, -, hkept⟩, hbytes⟩ :=
      (ldqLoadsSixteenBytes q off s).2.1 h
    obtain ⟨u, hu, -, hin, hout, -⟩ := (stqStoresSixteenBytes q off t).2.1 (hcfg ▸ h)
    refine ⟨t, u, ht, hu, fun a => ?_⟩
    by_cases ha : off.toNat ≤ a ∧ a < off.toNat + 16
    · obtain ⟨k, rfl⟩ := Nat.exists_eq_add_of_le ha.1
      have hk : k < 16 := by omega
      rw [hin k hk, hv, hbytes k hk]
    · rw [hout a (by omega), hkept a]

/-! ### Hexadecimal (R158, R159, R163) -/

@[simp] theorem hexDigits_length (n v : Nat) : (hexDigits n v).length = n := by
  induction n with
  | zero => rfl
  | succ n ih => rw [hexDigits, List.length_cons, ih]

@[simp] theorem toHex_length (v : U128) : (toHex v).length = 32 := hexDigits_length 32 v.toNat

theorem hexValue_hexAlphabet : ∀ d, d < 16 → hexValue (hexAlphabet.getD d '0') = some d := by decide

/-- Reading `n` digits of `v` appends `v mod 16^n` to the number read so far. -/
theorem hexNumber_hexDigits (n v acc : Nat) : hexNumber acc (hexDigits n v) = some (acc * 16 ^ n + v % 16 ^ n) := by
  induction n generalizing acc with
  | zero => simp [hexDigits, hexNumber, Nat.mod_one]
  | succ n ih =>
    have hd : v >>> (4 * n) = v / 16 ^ n := by rw [Nat.shiftRight_eq_div_pow, Nat.pow_mul]
    have hnumber : (acc * 16 + v / 16 ^ n % 16) * 16 ^ n + v % 16 ^ n = acc * 16 ^ (n + 1) + v % 16 ^ (n + 1) := by
      rw [Nat.mod_pow_succ, Nat.pow_succ, Nat.add_mul, Nat.mul_assoc, Nat.mul_comm 16 (16 ^ n),
        Nat.mul_comm (v / 16 ^ n % 16), Nat.add_assoc, Nat.add_comm (16 ^ n * _)]
    simp only [hexDigits, hexNumber, hexValue_hexAlphabet _ (Nat.mod_lt _ (by decide)), ih, hd, hnumber]

theorem fromHex_toHex (v : U128) : fromHex (toHex v) = v := by
  rw [fromHex, parseHex, lastN_of_length_eq (toHex_length v), toHex, hexNumber_hexDigits, Nat.zero_mul, Nat.zero_add]
  exact ofNat_toNat_mod v

/-- One character that is no digit, wherever it stands, ends the reading (R163). -/
theorem hexNumber_eq_none {t : List Char} {c : Char} (hc : c ∈ t) (hn : hexValue c = none) (acc : Nat) :
    hexNumber acc t = none := by
  induction hc generalizing acc with
  | head => simp only [hexNumber, hn]
  | @tail d t _ ih =>
    cases hd : hexValue d with
    | none => simp only [hexNumber, hd]
    | some n => simp only [hexNumber, hd, ih]

/-! ### Base64 (R160 to R162; the alphabet: log 11) -/

theorem base64Value_base64Char_of_lt : ∀ n, n < 64 → base64Value (base64Char n) = some n := by decide

theorem base64Char_ne_pad {n : Nat} (h : n < 64) : base64Char n ≠ '=' := by
  intro he
  have := base64Value_base64Char_of_lt n h
  rw [he] at this
  simp [base64Value] at this

/-- The four 6-bit values of three bytes give the bytes back. -/
theorem base64Group_bytes (a b c : U8) :
    base64Group (a.toNat / 4) (a.toNat % 4 * 16 + b.toNat / 16) (b.toNat % 16 * 4 + c.toNat / 64) (c.toNat % 64) =
      [a, b, c] := by
  have ha := a.isLt
  have hb := b.isLt
  have hc := c.isLt
  simp only [base64Group, List.cons.injEq, and_true]
  refine ⟨?_, ?_, ?_⟩ <;> apply BitVec.eq_of_toNat_eq <;> rw [BitVec.toNat_ofNat] <;> omega

/-- A group of four characters of the alphabet, the last one or not, decodes to its three bytes and what follows. -/
theorem base64Decode_group {p q r s : Nat} (hp : p < 64) (hq : q < 64) (hr : r < 64) (hs : s < 64) {cs : List Char}
    {bs : List U8} (h : base64Decode cs = some bs) :
    base64Decode (base64Char p :: base64Char q :: base64Char r :: base64Char s :: cs) =
      some (base64Group p q r s ++ bs) := by
  cases cs with
  | nil =>
    obtain rfl : [] = bs := by simpa [base64Decode] using h
    simp [base64Decode, base64Last, base64Value_base64Char_of_lt, base64Char_ne_pad, *]
  | cons c cs => simp [base64Decode, base64Value_base64Char_of_lt, *]

theorem base64Decode_base64Encode (bs : List U8) : base64Decode (base64Encode bs) = some bs := by
  induction bs using base64Encode.induct with
  | case1 => rfl
  | case2 a =>
    have ha := a.isLt
    have hp := base64Value_base64Char_of_lt (a.toNat / 4) (by omega)
    have hq := base64Value_base64Char_of_lt (a.toNat % 4 * 16) (by omega)
    have hg : base64Group (a.toNat / 4) (a.toNat % 4 * 16) 0 0 = [a, 0#8, 0#8] := by
      simpa using base64Group_bytes a 0#8 0#8
    simp [base64Encode, base64Decode, base64Last, hp, hq, hg]
  | case3 a b =>
    have ha := a.isLt
    have hb := b.isLt
    have hr64 : b.toNat % 16 * 4 < 64 := by omega
    have hp := base64Value_base64Char_of_lt (a.toNat / 4) (by omega)
    have hq := base64Value_base64Char_of_lt (a.toNat % 4 * 16 + b.toNat / 16) (by omega)
    have hr := base64Value_base64Char_of_lt _ hr64
    have hg : base64Group (a.toNat / 4) (a.toNat % 4 * 16 + b.toNat / 16) (b.toNat % 16 * 4) 0 = [a, b, 0#8] := by
      simpa using base64Group_bytes a b 0#8
    simp [base64Encode, base64Decode, base64Last, hp, hq, hr, hg, base64Char_ne_pad hr64]
  | case4 a b c bs ih =>
    have ha := a.isLt
    have hb := b.isLt
    have hc := c.isLt
    rw [base64Encode, base64Decode_group (by omega) (by omega) (by omega) (by omega) ih, base64Group_bytes]
    rfl

theorem base64Encode_length (bs : List U8) : (base64Encode bs).length = 4 * ((bs.length + 2) / 3) := by
  induction bs using base64Encode.induct with
  | case1 => rfl
  | case2 a => simp only [base64Encode, List.length_cons, List.length_nil]
  | case3 a b => simp only [base64Encode, List.length_cons, List.length_nil]
  | case4 a b c bs ih =>
    simp only [base64Encode, List.length_cons, ih]
    omega

/-- Settles O57: each decoder reads its encoder's text back, and base64 carries the 16 bytes. -/
theorem codecsRestoreTheValue : Obligations.CodecsRestoreTheValue := by
  refine fun v => ⟨toBytes_length v, fun k => toBytes_getElem? v, fromBytes_toBytes v, toHex_length v, fromHex_toHex v,
    ?length, fun p => ?decode⟩
  case length => rw [toBase64, base64Encode_length, toBytes_length]
  case decode =>
    simp only [fromBase64, toBase64, base64Decode_base64Encode, toBytes_length, if_true, fromBytes_toBytes]

/-! ### Overlong, short and invalid inputs (R157, R159, R163) -/

theorem beValue_replicate_zero_append (n : Nat) (bs : List U8) : beValue (List.replicate n 0#8 ++ bs) = beValue bs := by
  induction n with
  | zero => rfl
  | succ n ih => simp [List.replicate_succ, beValue_cons, ih]

/-- Settles O58: only the last 16 bytes or 32 characters are examined, leading zero bytes add nothing to the value, and
a character that is no digit ends the reading of the text. -/
theorem codecsTruncateExtendAndDegrade : Obligations.CodecsTruncateExtendAndDegrade := by
  refine ⟨fun front bs h => ?longBytes, fun bs h => ?shortBytes, fun front t h => ?longText,
    fun t h ⟨c, hc, hn⟩ => ?badDigit⟩
  case longBytes => simp only [fromBytes, lastN_append_of_length_eq h, lastN_of_length_eq h]
  case shortBytes =>
    have hlen : (List.replicate (16 - bs.length) 0#8 ++ bs).length ≤ 16 := by
      rw [List.length_append, List.length_replicate]
      omega
    rw [fromBytes, fromBytes, lastN_of_length_le h, lastN_of_length_le hlen, beValue_replicate_zero_append]
  case longText => simp only [fromHex, parseHex, lastN_append_of_length_eq h, lastN_of_length_eq h]
  case badDigit => rw [fromHex, parseHex, lastN_of_length_le h, hexNumber_eq_none hc hn]; rfl

end Sys2Proof.Machine
end

section
/-! PROOFS. The family 42_modfield.md. The two updates of an iteration of `MulMod` are the sum and the double modulo P
(`modAdd_toNat`, `modDouble_toNat`), which gives the invariant of R171 and from it the product. Both forms of `PowMod`
repeat one step, square and perhaps multiply, whose effect on the exponent is said once
(`squareAndMultiply_toNat`). -/

namespace Sys2Proof.Machine

/-! ### Sum and double modulo P (R170, R172) -/

theorem prime_toNat : Config.prime.toNat = 2 ^ 128 - 159 := by decide

theorem mod_prime_lt (n : Nat) : n % (2 ^ 128 - 159) < 2 ^ 128 - 159 := Nat.mod_lt n (by decide)

theorem compare128_ne_lt_iff (a b : U128) : compare128 a b ≠ .lt ↔ b.toNat ≤ a.toNat := by
  rw [compare128_eq]
  split
  · simpa
  · split <;> simp <;> omega

/-- A difference that is not negative does not wrap (R121). -/
theorem sub128_toNat_of_le {a b : U128} (h : b.toNat ≤ a.toNat) : (sub128 a b).toNat = a.toNat - b.toNat := by
  rw [sub128_eq, BitVec.toNat_sub_of_le h]

/-- The `P - a` of R170 as a number. -/
theorem sub128_prime_toNat {a : U128} (ha : a.toNat < 2 ^ 128 - 159) :
    (sub128 Config.prime a).toNat = 2 ^ 128 - 159 - a.toNat := by
  rw [sub128_toNat_of_le (prime_toNat ▸ Nat.le_of_lt ha), prime_toNat]

/-- Lines 5 to 9 of R170: `P - a` is taken off where adding `a` would reach P. -/
theorem modAdd_toNat {r a : U128} (hr : r.toNat < 2 ^ 128 - 159) (ha : a.toNat < 2 ^ 128 - 159) :
    (if compare128 r (sub128 Config.prime a) ≠ .lt then sub128 r (sub128 Config.prime a) else add128 r a).toNat =
      (r.toNat + a.toNat) % (2 ^ 128 - 159) := by
  have ht := sub128_prime_toNat ha
  simp only [compare128_ne_lt_iff]
  split
  · next h =>
    rw [sub128_toNat_of_le h]
    omega
  · rw [add128_toNat]
    omega

/-- Settles O38: below 2^127 the addition of 159 wraps, from 2^127 on the shift already has. -/
theorem doublingCorrectionIsRight : Obligations.DoublingCorrectionIsRight := by
  intro a ha h
  rw [add128_toNat, shl1_toNat, show (159#128).toNat = 159 from rfl]
  omega

/-- Lines 10 to 14 of R170. -/
theorem modDouble_toNat {a : U128} (ha : a.toNat < 2 ^ 128 - 159) :
    (if compare128 a (sub128 Config.prime a) ≠ .lt then add128 (shl1 a) Config.invertP else shl1 a).toNat =
      2 * a.toNat % (2 ^ 128 - 159) := by
  have ht := sub128_prime_toNat ha
  simp only [compare128_ne_lt_iff]
  split
  · next h =>
    rw [Config.invertP, (doublingCorrectionIsRight a ha (by omega)).1]
    omega
  · have hlt : 2 * a.toNat < 2 ^ 128 - 159 := by omega
    rw [shl1_toNat, Nat.mod_eq_of_lt hlt, Nat.mod_eq_of_lt (Nat.lt_of_lt_of_le hlt (Nat.sub_le _ _))]

/-! ### One iteration of `MulMod` (R170) -/

theorem mulModBody_a_toNat {m : MulState} (ha : m.a.toNat < 2 ^ 128 - 159) :
    (mulModBody m).a.toNat = 2 * m.a.toNat % (2 ^ 128 - 159) :=
  modDouble_toNat ha

theorem mulModBody_r_toNat {m : MulState} (hr : m.r.toNat < 2 ^ 128 - 159) (ha : m.a.toNat < 2 ^ 128 - 159) :
    (mulModBody m).r.toNat = (m.r.toNat + m.a.toNat * (m.b.toNat % 2)) % (2 ^ 128 - 159) := by
  simp only [mulModBody, isOdd_eq, decide_eq_true_eq]
  rcases Nat.mod_two_eq_zero_or_one m.b.toNat with hb | hb
  · rw [hb, if_neg Nat.zero_ne_one, Nat.mul_zero, Nat.add_zero, Nat.mod_eq_of_lt hr]
  · rw [hb, if_pos rfl, Nat.mul_one, modAdd_toNat hr ha]

theorem mulModBody_b_toNat (m : MulState) : (mulModBody m).b.toNat = m.b.toNat / 2 := shr1_toNat m.b

/-- An iteration with no bit left changes neither the result nor that no bit is left. -/
theorem mulModBody_of_isZero {m : MulState} (h : isZero m.b = true) :
    (mulModBody m).r = m.r ∧ isZero (mulModBody m).b = true := by
  have hb : m.b.toNat = 0 := by simpa [isZero_eq] using h
  constructor
  · simp [mulModBody, isOdd_eq, hb]
  · simp [isZero_eq, mulModBody_b_toNat, hb]

/-! ### The product (R171) -/

/-- Settles O36 by induction on the number of iterations: the multiplicand doubles, and bit `k` of the multiplier,
of weight `2^k`, is added to the sum of the bits below. -/
theorem mulModLoopInvariant : Obligations.MulModLoopInvariant := by
  intro a b k ha
  induction k with
  | zero =>
    refine ⟨?_, ?_, ?_⟩ <;> rw [Nat.repeat, Nat.pow_zero]
    · rw [Nat.mul_one, Nat.mod_eq_of_lt ha]
    · rw [Nat.mod_one, Nat.mul_zero, Nat.zero_mod]
      rfl
    · rw [Nat.div_one]
  | succ k ih =>
    obtain ⟨iha, ihr, ihb⟩ := ih
    have ha' := iha ▸ mod_prime_lt _
    have hr' := ihr ▸ mod_prime_lt _
    refine ⟨?multiplicand, ?result, ?multiplier⟩ <;> rw [Nat.repeat]
    case multiplicand => rw [mulModBody_a_toNat ha', iha, Nat.mul_mod_mod, Nat.pow_succ' (n := k), Nat.mul_left_comm]
    case result =>
      rw [mulModBody_r_toNat hr' ha', iha, ihr, ihb, Nat.mod_add_mod, ← Nat.add_mod_mod, Nat.mod_mul_mod,
        Nat.add_mod_mod, Nat.mul_assoc, ← Nat.mul_add, ← Nat.mod_pow_succ]
    case multiplier => rw [mulModBody_b_toNat, ihb, Nat.div_div_eq_div_mul, Nat.pow_succ]

theorem mulModLoop_of_isZero {m : MulState} (h : isZero m.b = true) (n : Nat) : mulModLoop n m = m.r := by
  cases n with
  | zero => rfl
  | succ n => rw [mulModLoop, if_pos h]

/-- Going on after the last bit would not change the result (R179). -/
theorem mulModLoop_succ (n : Nat) (m : MulState) : mulModLoop (n + 1) m = mulModLoop n (mulModBody m) := by
  by_cases h : isZero m.b = true
  · obtain ⟨hr, hz⟩ := mulModBody_of_isZero h
    rw [mulModLoop_of_isZero h, mulModLoop_of_isZero hz, hr]
  · rw [mulModLoop, if_neg h]

theorem mulModLoop_repeat (n k : Nat) (m : MulState) :
    mulModLoop n (Nat.repeat mulModBody k m) = mulModLoop (n + k) m := by
  induction k generalizing n with
  | zero => rfl
  | succ k ih => rw [Nat.repeat, ← mulModLoop_succ, ih, Nat.add_assoc, Nat.add_comm 1]

/-- Settles O37: the result is what the loop holds after 128 iterations, when every bit of the multiplier is used. -/
theorem mulModIsTheProductModuloP : Obligations.MulModIsTheProductModuloP := by
  intro a b ha
  obtain ⟨-, hr, -⟩ := mulModLoopInvariant a b Config.width ha
  rw [mulMod, ← Nat.zero_add Config.width, ← mulModLoop_repeat, mulModLoop, hr, Nat.mod_eq_of_lt (toNat_lt_width b)]

theorem mulMod_lt {a : U128} (ha : a.toNat < 2 ^ 128 - 159) (b : U128) : (mulMod a b).toNat < 2 ^ 128 - 159 := by
  rw [mulModIsTheProductModuloP a b ha]
  exact mod_prime_lt _

/-! ### The power (R173 to R175) -/

/-- A base is reduced by one subtraction, since every value is below 2 P (R173). -/
theorem reduceOnce_toNat (a : U128) : (reduceOnce a).toNat = a.toNat % (2 ^ 128 - 159) := by
  have hlt := a.isLt
  simp only [reduceOnce, compare128_ne_lt_iff, prime_toNat]
  split
  · next h =>
    rw [sub128_toNat_of_le (by rwa [prime_toNat]), prime_toNat]
    omega
  · omega

theorem reduceOnce_lt (a : U128) : (reduceOnce a).toNat < 2 ^ 128 - 159 := by
  rw [reduceOnce_toNat]
  exact mod_prime_lt _

/-- Squaring a power and multiplying by the base where `bit` is 1 appends `bit` to the exponent. -/
theorem squareAndMultiply_toNat {t a : U128} {e : Nat} (ht : t.toNat = a.toNat ^ e % (2 ^ 128 - 159)) (bit : Bool) :
    (if bit = true then mulMod (mulMod t t) a else mulMod t t).toNat =
      a.toNat ^ (2 * e + bit.toNat) % (2 ^ 128 - 159) := by
  have htlt : t.toNat < 2 ^ 128 - 159 := ht ▸ mod_prime_lt _
  have hsquare : (mulMod t t).toNat = a.toNat ^ (2 * e) % (2 ^ 128 - 159) := by
    rw [mulModIsTheProductModuloP t t htlt, ht, ← Nat.mul_mod, ← Nat.pow_add, Nat.two_mul]
  cases bit with
  | false => rw [if_neg Bool.false_ne_true, hsquare, Bool.toNat_false, Nat.add_zero]
  | true =>
    rw [if_pos rfl, mulModIsTheProductModuloP _ _ (mulMod_lt htlt t), hsquare, Nat.mod_mul_mod, Bool.toNat_true,
      Nat.pow_succ a.toNat]

theorem one_le_toNat_iff (v : U128) : 1 ≤ v.toNat ↔ v ≠ 0#128 :=
  Nat.one_le_iff_ne_zero.trans (not_congr (BitVec.toNat_inj (y := 0#128)))

theorem isOdd_toNat (b : U128) : (isOdd b).toNat = b.toNat % 2 := by
  rw [isOdd_eq, ← Nat.testBit_zero, Nat.toNat_testBit, Nat.pow_zero, Nat.div_one]

/-- The recursion of R173, for an exponent of at most `n` bits. -/
theorem powRec_toNat {n : Nat} {a b : U128} (ha : a.toNat < 2 ^ 128 - 159) (hpos : 0 < b.toNat)
    (hlt : b.toNat < 2 ^ n) : (powRec n a b).toNat = a.toNat ^ b.toNat % (2 ^ 128 - 159) := by
  induction n generalizing b with
  | zero => omega
  | succ n ih =>
    rw [powRec]
    split
    · next hb => rw [hb, show (1#128).toNat = 1 from rfl, Nat.pow_one, Nat.mod_eq_of_lt ha]
    · next hb =>
      have hb1 : b.toNat ≠ 1 := fun h => hb (BitVec.eq_of_toNat_eq h)
      have hhalf : (shr1 b).toNat = b.toNat / 2 := shr1_toNat b
      have hrec := ih (b := shr1 b) (by omega) (by omega)
      rw [squareAndMultiply_toNat hrec, isOdd_toNat, hhalf, Nat.div_add_mod]

/-- Settles O39: the base is reduced, and 128 calls suffice for every exponent. -/
theorem powModIsThePowerModuloP : Obligations.PowModIsThePowerModuloP := by
  intro a b hb
  rw [powMod, powRec_toNat (reduceOnce_lt a) ((one_le_toNat_iff b).2 hb) (toNat_lt_width b), reduceOnce_toNat]

/-- The loop of R174: where the bits from `i` on are used, it uses the rest. -/
theorem powIterLoop_toNat {a b t : U128} {i : Nat} (ht : t.toNat = a.toNat ^ (b.toNat / 2 ^ i) % (2 ^ 128 - 159)) :
    (powIterLoop a b i t).toNat = a.toNat ^ b.toNat % (2 ^ 128 - 159) := by
  induction i generalizing t with
  | zero => rw [powIterLoop, ht, Nat.pow_zero, Nat.div_one]
  | succ i ih =>
    refine ih ?_
    have hbits : 2 * (b.toNat / 2 ^ (i + 1)) + (b.getLsbD i).toNat = b.toNat / 2 ^ i := by
      rw [← BitVec.testBit_toNat, Nat.toNat_testBit, Nat.pow_succ, ← Nat.div_div_eq_div_mul, Nat.div_add_mod]
    rw [squareAndMultiply_toNat ht, hbits]

/-- Settles O40: both forms compute the power; the loop starts with the leading bit used. -/
theorem powModIterativeFormAgrees : Obligations.PowModIterativeFormAgrees := by
  intro a b hb
  have hb0 : b.toNat ≠ 0 := Nat.one_le_iff_ne_zero.1 ((one_le_toNat_iff b).2 hb)
  have hlead : b.toNat / 2 ^ Nat.log2 b.toNat = 1 :=
    Nat.div_eq_of_lt_le (by simpa using Nat.log2_self_le hb0) (by simpa [Nat.pow_succ'] using Nat.lt_log2_self)
  have hstart : (reduceOnce a).toNat =
      (reduceOnce a).toNat ^ (b.toNat / 2 ^ Nat.log2 b.toNat) % (2 ^ 128 - 159) := by
    rw [hlead, Nat.pow_one, Nat.mod_eq_of_lt (reduceOnce_lt a)]
  apply BitVec.eq_of_toNat_eq
  rw [powModIter, powIterLoop_toNat hstart, powModIsThePowerModuloP a b hb, reduceOnce_toNat]

/-! ### The commands (R176, R177) -/

theorem execMulmod_ok {qa : QReg} {s : State} (h : (readQ qa s).toNat < 2 ^ 128 - 159) (qd qb : QReg) :
    execMulmod qd qa qb s = complete (writeQ qd (mulMod (readQ qa s) (readQ qb s)) s) := by
  rw [execMulmod, if_neg]
  rwa [compare128_ne_lt_iff, prime_toNat, Nat.not_le]

theorem execMulmod_operand {qa : QReg} {s : State} (h : 2 ^ 128 - 159 ≤ (readQ qa s).toNat) (qd qb : QReg) :
    execMulmod qd qa qb s = raiseErr .operand s := by
  rw [execMulmod, if_pos]
  rwa [compare128_ne_lt_iff, prime_toNat]

theorem execPowmod_ok {qb : QReg} {s : State} (h : readQ qb s ≠ 0#128) (qd qa : QReg) :
    execPowmod qd qa qb s = complete (writeQ qd (powMod (readQ qa s) (readQ qb s)) s) := by
  have hne : (readQ qb s).toNat ≠ 0 := Nat.one_le_iff_ne_zero.1 ((one_le_toNat_iff _).2 h)
  simp [execPowmod, isZero_eq, hne]

theorem execPowmod_expZero {qb : QReg} {s : State} (h : readQ qb s = 0#128) (qd qa : QReg) :
    execPowmod qd qa qb s = raiseErr .expZero s := by
  simp [execPowmod, isZero_eq, h]

/-- Settles O41: below P the value written is `MulMod`, the product modulo P. -/
theorem mulmodCommand : Obligations.MulmodCommand := by
  refine fun qd qa qb s => ⟨fieldsOf_encode_op _, fun h => ?_, fun h => ?_⟩
  · obtain ⟨t, ht, hw⟩ := complete_writeQ_writesOnlyQ qd (mulMod (readQ qa s) (readQ qb s)) s
    rw [(BitVec.toNat_eq_nat.1 (mulModIsTheProductModuloP _ (readQ qb s) h)).2] at hw
    exact ⟨t, (execMulmod_ok h qd qb).trans ht, hw⟩
  · obtain ⟨t, ht, hf⟩ := raiseErr_failed .operand s
    exact ⟨t, (execMulmod_operand h qd qb).trans ht, hf⟩

/-- Settles O42: for an exponent other than 0 the value written is `PowMod`, the power modulo P. -/
theorem powmodCommand : Obligations.PowmodCommand := by
  refine fun qd qa qb s => ⟨fieldsOf_encode_op _, fun h => ?_, fun h => ?_⟩
  · obtain ⟨t, ht, hw⟩ := complete_writeQ_writesOnlyQ qd (powMod (readQ qa s) (readQ qb s)) s
    rw [(BitVec.toNat_eq_nat.1 (powModIsThePowerModuloP (readQ qa s) _ h)).2] at hw
    exact ⟨t, (execPowmod_ok h qd qa).trans ht, hw⟩
  · obtain ⟨t, ht, hf⟩ := raiseErr_failed .expZero s
    exact ⟨t, (execPowmod_expZero h qd qa).trans ht, hf⟩

/-! ### The laws (R178) -/

theorem mulMod_comm {a b : U128} (ha : a.toNat < 2 ^ 128 - 159) (hb : b.toNat < 2 ^ 128 - 159) :
    mulMod a b = mulMod b a := by
  apply BitVec.eq_of_toNat_eq
  rw [mulModIsTheProductModuloP a b ha, mulModIsTheProductModuloP b a hb, Nat.mul_comm]

theorem powMod_lt (a : U128) {b : U128} (hb : b ≠ 0#128) : (powMod a b).toNat < 2 ^ 128 - 159 := by
  rw [powModIsThePowerModuloP a b hb]
  exact mod_prime_lt _

theorem powMod_add (a : U128) {e₁ e₂ : U128} (h₁ : e₁ ≠ 0#128) (h₂ : e₂ ≠ 0#128)
    (hsum : e₁.toNat + e₂.toNat < 2 ^ 128) : powMod a (e₁ + e₂) = mulMod (powMod a e₁) (powMod a e₂) := by
  have hadd : (e₁ + e₂).toNat = e₁.toNat + e₂.toNat := BitVec.toNat_add_of_lt hsum
  have hne : e₁ + e₂ ≠ 0#128 := by
    rw [← one_le_toNat_iff, hadd]
    exact Nat.le_add_right_of_le ((one_le_toNat_iff e₁).2 h₁)
  apply BitVec.eq_of_toNat_eq
  rw [mulModIsTheProductModuloP _ _ (powMod_lt a h₁), powModIsThePowerModuloP a _ hne, powModIsThePowerModuloP a _ h₁,
    powModIsThePowerModuloP a _ h₂, hadd, Nat.pow_add, ← Nat.mul_mod]

/-- A power of a power is the power by the product of the exponents. -/
theorem powMod_powMod_toNat (g : U128) {a b : U128} (ha : a ≠ 0#128) (hb : b ≠ 0#128) :
    (powMod (powMod g a) b).toNat = g.toNat ^ (a.toNat * b.toNat) % (2 ^ 128 - 159) := by
  rw [powModIsThePowerModuloP _ b hb, powModIsThePowerModuloP g a ha, ← Nat.pow_mod, ← Nat.pow_mod, ← Nat.pow_mul,
    ← Nat.pow_mod]

theorem powMod_powMod_comm (g : U128) {a b : U128} (ha : a ≠ 0#128) (hb : b ≠ 0#128) :
    powMod (powMod g a) b = powMod (powMod g b) a := by
  apply BitVec.eq_of_toNat_eq
  rw [powMod_powMod_toNat g ha hb, powMod_powMod_toNat g hb ha, Nat.mul_comm]

/-- Settles O43: each law is one of products and powers of numbers. -/
theorem modularLaws : Obligations.ModularLaws :=
  ⟨fun _ b ha hb => ⟨mulMod_lt ha b, mulMod_comm ha hb⟩,
    fun a _ _ _ h₁ h₂ hsum => powMod_add a ((one_le_toNat_iff _).1 h₁) ((one_le_toNat_iff _).1 h₂) hsum,
    fun _ _ ha hb => powMod_powMod_comm 5#128 ((one_le_toNat_iff _).1 ha) ((one_le_toNat_iff _).1 hb)⟩

end Sys2Proof.Machine
end

section
/-! PROOFS. The family 43_keyexchange.md. For an exponent other than 0 the host's `PowMod` answers, so a non-zero draw
gives a key pair (R191) and derives a secret (R193). That the two secrets are equal is then a law of the modular unit
(`powMod_powMod_comm`, `powMod_powMod_toNat`). -/

namespace Sys2Proof.Machine

theorem hostPowMod_of_ne_zero (a : U128) {b : U128} (hb : b ≠ 0#128) : hostPowMod a b = some (powMod a b) := by
  have hz : ¬ isZero b = true := by simpa [isZero_eq, BitVec.toNat_eq] using hb
  rw [hostPowMod, if_neg hz]

theorem generateKeyPair_of_ne_zero {a : U128} (ha : a ≠ 0#128) :
    generateKeyPair a = some ⟨powMod Config.generator a, a⟩ := by
  rw [generateKeyPair, hostPowMod_of_ne_zero _ ha, Option.map_some]

/-- What is generated satisfies the invariant of R190, whatever the draw. -/
theorem generateKeyPair_generated {a : U128} {p : KeyPair} (h : generateKeyPair a = some p) : p.generated := by
  have ha : a ≠ 0#128 := by
    rintro rfl
    cases h
  cases (generateKeyPair_of_ne_zero ha).symm.trans h
  rfl

theorem deriveSecret_of_ne_zero {a : U128} (ha : a ≠ 0#128) (peer : U128) :
    deriveSecret a peer = some (powMod peer a) :=
  hostPowMod_of_ne_zero peer ha

/-- Settles O44: A's secret is `(G^b)^a`, B's is `(G^a)^b`, and both are the power by the product. -/
theorem keyExchangeAgrees : Obligations.KeyExchangeAgrees := by
  intro a b ha hb
  have hA := generateKeyPair_of_ne_zero ha
  have hB := generateKeyPair_of_ne_zero hb
  have hsecretA := deriveSecret_of_ne_zero ha (powMod Config.generator b)
  have hsecretB := deriveSecret_of_ne_zero hb (powMod Config.generator a)
  rw [powMod_powMod_comm _ hb ha] at hsecretA
  exact ⟨_, _, _, hA, hB, generateKeyPair_generated hA, generateKeyPair_generated hB, rfl, rfl, hsecretA, hsecretB,
    powMod_powMod_toNat Config.generator ha hb⟩

end Sys2Proof.Machine
end

section
/-! PROOFS. The family 44_blockcipher.md. Rounds undo each other one by one (`decRound_encRound`), which makes the block
functions inverse. A data command ends in an error or in a success that writes bytes of `BUF` and `LEN`, said once by
`complete_buf_len_frame`; what is left of each statement is the bytes written. The round trip of R215 is read off the
success of `ENC` (`exec_enc_frame`) and the statement about `DEC`. -/

namespace Sys2Proof.Machine

/-! ### The block functions are inverse (R215) -/

theorem decRounds_encRounds (k : KeyFile) (n : Nat) (x : Round) : decRounds k n (encRounds k n x) = x := by
  induction n with
  | zero => rfl
  | succ n ih => rw [encRounds_last, decRounds, decRound_encRound, ih]

theorem encRounds_decRounds (k : KeyFile) (n : Nat) (x : Round) : encRounds k n (decRounds k n x) = x := by
  induction n with
  | zero => rfl
  | succ n ih => rw [decRounds_last, encRounds, encRound_decRound, ih]

/-- After the 32 rounds the sum stands where decryption starts it (R203). -/
theorem encRounds_eq_encBlock (k : KeyFile) (v0 v1 : U32) :
    encRounds k Config.rounds ⟨v0, v1, 0#32⟩ = ⟨(encBlock k v0 v1).1, (encBlock k v0 v1).2, 0xC6EF3720#32⟩ := by
  have hsum : (encRounds k Config.rounds ⟨v0, v1, 0#32⟩).sum = 0xC6EF3720#32 :=
    (encRounds_sum k 32 _).trans (by decide : 0#32 + BitVec.ofNat 32 (32 * 0x9E3779B9) = 0xC6EF3720#32)
  rw [encBlock, ← hsum]

/-- Decryption's sum comes back to 0 (R203). -/
theorem decRounds_sum_eq_zero (k : KeyFile) (v0 v1 : U32) :
    (decRounds k Config.rounds ⟨v0, v1, 0xC6EF3720#32⟩).sum = 0#32 :=
  (decRounds_sum k 32 _).trans (by decide : 0xC6EF3720#32 - BitVec.ofNat 32 (32 * 0x9E3779B9) = 0#32)

theorem decRounds_eq_decBlock (k : KeyFile) (v0 v1 : U32) :
    decRounds k Config.rounds ⟨v0, v1, 0xC6EF3720#32⟩ = ⟨(decBlock k v0 v1).1, (decBlock k v0 v1).2, 0#32⟩ := by
  rw [decBlock, ← decRounds_sum_eq_zero k v0 v1]

theorem decBlock_encBlock (k : KeyFile) (v0 v1 : U32) :
    decBlock k (encBlock k v0 v1).1 (encBlock k v0 v1).2 = (v0, v1) := by
  rw [decBlock, ← encRounds_eq_encBlock, decRounds_encRounds]

theorem encBlock_decBlock (k : KeyFile) (v0 v1 : U32) :
    encBlock k (decBlock k v0 v1).1 (decBlock k v0 v1).2 = (v0, v1) := by
  rw [encBlock, ← decRounds_eq_decBlock, encRounds_decRounds]

theorem decBlock_eq_of_eq_encBlock {k : KeyFile} {v0 v1 w0 w1 : U32} (h : (w0, w1) = encBlock k v0 v1) :
    decBlock k w0 w1 = (v0, v1) := by
  have hback := decBlock_encBlock k v0 v1
  rwa [← h] at hback

/-- Settles O49: each round is undone, the last one first. -/
theorem blockFunctionsAreInverse : Obligations.BlockFunctionsAreInverse := fun k v0 v1 =>
  ⟨decBlock_encBlock k v0 v1, encBlock_decBlock k v0 v1⟩

/-! ### The round schedule (R216) -/

theorem encRound_v0 (k : KeyFile) (x : Round) : (encRound k x).v0 = x.v0 + (mix x.v1 ^^^ keyTerm0 k x.sum) := rfl

/-- The second half of a round uses the new `v0` and the new sum (R202). -/
theorem encRound_v1 (k : KeyFile) (x : Round) :
    (encRound k x).v1 = x.v1 + (mix (encRound k x).v0 ^^^ keyTerm1 k (encRound k x).sum) := rfl

/-- The column `idx v1` of R216's table. -/
def v1KeyIndices : List Nat :=
  [3, 2, 1, 0, 0, 3, 2, 1, 0, 0, 3, 2, 1, 1, 0, 3, 2, 1, 1, 0, 3, 2, 1, 1, 0, 3, 2, 2, 1, 0, 3, 2]

/-- The column `idx v0` of R216's table: `delta` is 1 modulo 4. -/
theorem keyIndex_sum (i : Nat) : keyIndex (BitVec.ofNat 32 (i * 0x9E3779B9)) = BitVec.ofNat 2 (i % 4) := by
  apply BitVec.eq_of_toNat_eq
  rw [keyIndex_toNat, Config.keyWords, BitVec.toNat_ofNat, BitVec.toNat_ofNat]
  omega

/-- The column `idx v1` of R216's table, row by row. -/
theorem keyIndex_sum_shiftRight :
    ∀ i < 32, keyIndex (BitVec.ofNat 32 ((i + 1) * 0x9E3779B9) >>> 11) = BitVec.ofNat 2 (v1KeyIndices.getD i 0) := by
  decide

/-- Settles O50: the sum before round `i` is `i·delta`, whose key indices are those of the table. -/
theorem roundScheduleDependsOnTheRoundOnly : Obligations.RoundScheduleDependsOnTheRoundOnly := by
  intro k v0 v1 i hi x sum
  have hx : x.sum = BitVec.ofNat 32 (i * 0x9E3779B9) := (encRounds_sum k i _).trans (BitVec.zero_add _)
  have hsum : (encRound k x).sum = sum := by
    rw [encRound, hx, Config.delta, ← BitVec.ofNat_add, ← Nat.succ_mul]
  have hterm : keyTerm1 k sum = sum + keyWord k (BitVec.ofNat 2 (v1KeyIndices.getD i 0)) := by
    rw [keyTerm1, keyIndex_sum_shiftRight i hi]
  refine ⟨?before, hsum, ?v0, ?v1, decRounds_sum_eq_zero k v0 v1⟩
  case before => rw [hx, BitVec.toNat_ofNat]
  case v0 => rw [encRound_v0, keyTerm0, hx, keyIndex_sum]
  case v1 =>
    rw [encRound_v1, hsum, hterm]
    rfl

/-! ### The ends of a cipher command -/

/-- An error answers a state with the latch set and nothing else changed (60_exceptions.md R244). -/
theorem failed_of_eq_raiseErr {o : Host.Outcome State Fault Refusal} {e : ErrCode} {s : State}
    (h : o = raiseErr e s) : ∃ t, o = .next t ∧ failed (errBits e) s t := by
  rw [h]
  exact raiseErr_failed e s

/-- A success that writes bytes of `BUF` and `LEN` writes nothing else (60_exceptions.md R241). -/
theorem complete_buf_len_frame (m : Memory) (l : U32) (s : State) :
    ∃ t, complete { s with buf := m, len := l } = .next t ∧ succeeded s t ∧ bufByte t = memByte s.resets m ∧
      t.len = l ∧ regsKept s t ∧ keyKept s t ∧ t.flags = s.flags := by
  refine ⟨_, rfl, ?success, rfl, rfl, readQ_congr rfl, ⟨rfl, rfl⟩, rfl⟩
  case success => exact ⟨rfl, rfl, rfl, rfl, rfl, rfl, rfl, rfl, rfl⟩

/-! ### `SETKEY`, `ELEN`, `DLEN` (R206, R212, R213) -/

theorem complete_key_frame (k : KeyFile) (s : State) :
    ∃ t, complete { s with k := k, keyValid := true } = .next t ∧ succeeded s t ∧ t.keyValid = true ∧ t.k = k ∧
      regsKept s t ∧ t.flags = s.flags ∧ t.len = s.len ∧ memKept s t := by
  refine ⟨_, rfl, ?success, rfl, rfl, readQ_congr rfl, rfl, rfl, bufByte_congr rfl rfl⟩
  case success => exact ⟨rfl, rfl, rfl, rfl, rfl, rfl, rfl, rfl, rfl⟩

/-- The key words as numbers (R200). -/
theorem keyWords_toNat (q : U128) :
    (keyWords q).k0.toNat = q.toNat % 2 ^ 32 ∧ (keyWords q).k1.toNat = q.toNat / 2 ^ 32 % 2 ^ 32 ∧
      (keyWords q).k2.toNat = q.toNat / 2 ^ 64 % 2 ^ 32 ∧ (keyWords q).k3.toNat = q.toNat / 2 ^ 96 := by
  have hq := q.isLt
  refine ⟨(word32_toNat q 0#2).trans ?_, word32_toNat q 1#2, word32_toNat q 2#2, (word32_toNat q 3#2).trans ?_⟩
  · rw [show 32 * (0#2).toNat = 0 from rfl, Nat.pow_zero, Nat.div_one]
  · rw [show 32 * (3#2).toNat = 96 from rfl]
    omega

/-- Settles O48: the key file written holds the four words of `Q[qa]`. -/
theorem setkeyDerivesTheKeyWords : Obligations.SetkeyDerivesTheKeyWords := by
  intro qa s
  obtain ⟨t, ht, hok, hvalid, hk, hframe⟩ := complete_key_frame (keyWords (readQ qa s)) s
  obtain ⟨h0, h1, h2, h3⟩ := keyWords_toNat (readQ qa s)
  rw [← hk] at h0 h1 h2 h3
  exact ⟨fieldsOf_encode_op _, t, ht, hok, hvalid, h0, h1, h2, h3, hframe⟩

/-- A success that writes `LEN` writes nothing else (60_exceptions.md R241). -/
theorem complete_len_frame {n : Nat} (hn : n < 2 ^ 32) (s : State) :
    ∃ t, complete { s with len := BitVec.ofNat 32 n } = .next t ∧ succeeded s t ∧ t.len.toNat = n ∧
      regsKept s t ∧ keyKept s t ∧ t.flags = s.flags ∧ memKept s t := by
  obtain ⟨t, ht, hok, hbuf, hlen, hregs, hkey, hflags⟩ := complete_buf_len_frame s.buf (BitVec.ofNat 32 n) s
  exact ⟨t, ht, hok, by rw [hlen, BitVec.toNat_ofNat, Nat.mod_eq_of_lt hn], hregs, hkey, hflags, congrFun hbuf⟩

/-- Settles O56: the length functions of a 16-bit operand fit `LEN`. -/
theorem lengthCommandsWriteLen : Obligations.LengthCommandsWriteLen := by
  refine fun len s => ⟨⟨fieldsOf_encode_op _, ?elen⟩, fieldsOf_encode_op _, ?dlen⟩
  case elen =>
    have hlt := len.isLt
    obtain ⟨t, ht, hok, hlen, hframe⟩ := complete_len_frame (n := encryptLength len.toNat)
      (by rw [encryptLength_eq]; omega) s
    rw [encryptLength_eq] at hlen
    exact ⟨t, ht, hok, hlen, by omega, by omega, by omega, hframe⟩
  case dlen => exact complete_len_frame (n := len.toNat) (by omega) s

/-! ### The two words of a block -/

/-- Blocks with equal bytes have equal words. -/
theorem wordPair_congr {f g : Nat → U8} {a : Nat} (h : ∀ x, x < 8 → f (a + x) = g (a + x)) :
    (wordOf f a, wordOf f (a + 4)) = (wordOf g a, wordOf g (a + 4)) := by
  have hsecond : wordOf f (a + 4) = wordOf g (a + 4) := wordOf_congr fun x hx => by
    rw [Nat.add_assoc, h (4 + x) (by omega)]
  rw [wordOf_congr fun x hx => h x (by omega), hsecond]

/-- Byte `k` of a word is the byte it was read from (20_memory.md R61). -/
theorem extractLsb'_wordOf (f : Nat → U8) (a : Nat) {k : Nat} (hk : k < 4) :
    (wordOf f a).extractLsb' (24 - 8 * k) 8 = f (a + k) := by
  rw [wordOf]
  rcases (by omega : k = 0 ∨ k = 1 ∨ k = 2 ∨ k = 3) with rfl | rfl | rfl | rfl
  · rw [BitVec.extractLsb'_append_eq_of_le (by omega), BitVec.extractLsb'_append_eq_of_le (by omega),
      BitVec.extractLsb'_append_eq_of_le (by omega)]
    exact BitVec.extractLsb'_eq_self
  · rw [BitVec.extractLsb'_append_eq_of_le (by omega), BitVec.extractLsb'_append_eq_of_le (by omega),
      BitVec.extractLsb'_append_eq_of_add_le (by omega)]
    exact BitVec.extractLsb'_eq_self
  · rw [BitVec.extractLsb'_append_eq_of_le (by omega), BitVec.extractLsb'_append_eq_of_add_le (by omega)]
    exact BitVec.extractLsb'_eq_self
  · rw [BitVec.extractLsb'_append_eq_of_add_le (by omega)]
    exact BitVec.extractLsb'_eq_self

/-- The bytes of a block are the bytes its words were read from (20_memory.md R61, R63). -/
theorem byteOfBlock_wordOf (f : Nat → U8) (a : Nat) {x : Nat} (hx : x < 8) :
    byteOfBlock (wordOf f a, wordOf f (a + 4)) x = f (a + x) := by
  rw [byteOfBlock]
  by_cases h : x < 4
  · rw [BitVec.extractLsb'_append_eq_of_le (by omega), show 56 - 8 * x - 32 = 24 - 8 * x by omega,
      extractLsb'_wordOf f a h]
  · rw [BitVec.extractLsb'_append_eq_of_add_le (by omega), show 56 - 8 * x = 24 - 8 * (x - 4) by omega,
      extractLsb'_wordOf f (a + 4) (by omega), show a + 4 + (x - 4) = a + x by omega]

/-- Blocks with equal words have equal bytes. -/
theorem eq_of_wordPair_eq {f g : Nat → U8} {a : Nat}
    (h : (wordOf f a, wordOf f (a + 4)) = (wordOf g a, wordOf g (a + 4))) {x : Nat} (hx : x < 8) :
    f (a + x) = g (a + x) := by
  rw [← byteOfBlock_wordOf f a hx, h, byteOfBlock_wordOf g a hx]

/-! ### `ENCBLK`, `DECBLK` (R208, R209) -/

/-- A success that transforms one block in place, in either direction. -/
theorem complete_transformBlock_frame (f : U32 → U32 → U32 × U32) (a : Nat) (s : State) :
    ∃ t, complete { s with buf := transformBlock f s.resets s.buf a } = .next t ∧ succeeded s t ∧
      (wordOf (bufByte t) a, wordOf (bufByte t) (a + 4)) = f (wordOf (bufByte s) a) (wordOf (bufByte s) (a + 4)) ∧
      memKeptBut a 8 s t ∧ regsKept s t ∧ keyKept s t ∧ t.flags = s.flags ∧ t.len = s.len := by
  obtain ⟨t, ht, hok, hbuf, hlen, hregs, hkey, hflags⟩ :=
    complete_buf_len_frame (transformBlock f s.resets s.buf a) s.len s
  refine ⟨t, ht, hok, ?words, fun x hx => ?outside, hregs, hkey, hflags, hlen⟩
  case words => rw [hbuf, wordOf_transformBlock, bufByte_eq]
  case outside => rw [hbuf, memByte_transformBlock_outside _ _ _ _ _ hx, bufByte_eq]

/-- The shape that `ENCBLK` and `DECBLK` share (R207, R209), with the block function left open. -/
def execBlock (f : U32 → U32 → U32 × U32) (off : U16) (s : State) : Host.Outcome State Fault Refusal :=
  if !s.keyValid then raiseErr .noKey s
  else if !inRange s off.toNat Config.blockBytes then raiseErr .range s
  else complete { s with buf := transformBlock f s.resets s.buf off.toNat }

theorem exec_encblk_eq (off : U16) (s : State) : exec (.encblk off) s = execBlock (encBlock s.k) off s := rfl

theorem exec_decblk_eq (off : U16) (s : State) : exec (.decblk off) s = execBlock (decBlock s.k) off s := rfl

theorem execBlock_noKey (f : U32 → U32 → U32 × U32) (off : U16) {s : State} (hk : s.keyValid = false) :
    execBlock f off s = raiseErr .noKey s := by
  simp [execBlock, hk]

theorem execBlock_outside (f : U32 → U32 → U32 × U32) {off : U16} {s : State} (hk : s.keyValid = true)
    (h : s.cfg.bufBytes < off.toNat + 8) : execBlock f off s = raiseErr .range s := by
  simp [execBlock, Config.blockBytes, hk, inRange_eq_false h]

theorem execBlock_inside (f : U32 → U32 → U32 × U32) {off : U16} {s : State} (hk : s.keyValid = true)
    (h : off.toNat + 8 ≤ s.cfg.bufBytes) :
    execBlock f off s = complete { s with buf := transformBlock f s.resets s.buf off.toNat } := by
  simp [execBlock, Config.blockBytes, hk, inRange_eq_true h]

/-- The three ends of a block command, in either direction (R207 to R209). -/
theorem execBlock_ends (f : U32 → U32 → U32 × U32) (off : U16) (s : State) :
    (s.keyValid = false → ∃ t, execBlock f off s = .next t ∧ failed 5#4 s t) ∧
      (s.keyValid = true → s.cfg.bufBytes < off.toNat + 8 → ∃ t, execBlock f off s = .next t ∧ failed 4#4 s t) ∧
      (s.keyValid = true → off.toNat + 8 ≤ s.cfg.bufBytes →
        ∃ t, execBlock f off s = .next t ∧ succeeded s t ∧
          (wordOf (bufByte t) off.toNat, wordOf (bufByte t) (off.toNat + 4)) =
            f (wordOf (bufByte s) off.toNat) (wordOf (bufByte s) (off.toNat + 4)) ∧
          memKeptBut off.toNat 8 s t ∧ regsKept s t ∧ keyKept s t ∧ t.flags = s.flags ∧ t.len = s.len) := by
  refine ⟨fun hk => failed_of_eq_raiseErr (execBlock_noKey f off hk),
    fun hk h => failed_of_eq_raiseErr (execBlock_outside f hk h), fun hk h => ?_⟩
  rw [execBlock_inside f hk h]
  exact complete_transformBlock_frame f off.toNat s

/-- Settles O51: the block function is `EncBlock`. -/
theorem encblkTransformsOneBlock : Obligations.EncblkTransformsOneBlock := by
  intro off s
  rw [exec_encblk_eq]
  exact ⟨fieldsOf_encode_op _, execBlock_ends (encBlock s.k) off s⟩

/-- Settles O52: the block function is `DecBlock`. -/
theorem decblkTransformsOneBlock : Obligations.DecblkTransformsOneBlock := by
  intro off s
  rw [exec_decblk_eq]
  exact ⟨fieldsOf_encode_op _, execBlock_ends (decBlock s.k) off s⟩

/-! ### `ENC` (R210) -/

/-- The plaintext of `n` bytes and the padding after it (R210). -/
def paddedByte (byte : Nat → U8) (n a : Nat) : U8 := if a < n then byte a else BitVec.ofNat 8 (8 - n % 8)

theorem paddedByte_of_lt (byte : Nat → U8) {n a : Nat} (h : a < n) : paddedByte byte n a = byte a := if_pos h

theorem paddedByte_of_le (byte : Nat → U8) {n a : Nat} (h : n ≤ a) :
    paddedByte byte n a = BitVec.ofNat 8 (8 - n % 8) := if_neg (Nat.not_lt_of_le h)

theorem wordOf_paddedByte (byte : Nat → U8) {n a : Nat} (h : a + 4 ≤ n) :
    wordOf (paddedByte byte n) a = wordOf byte a :=
  wordOf_congr fun _ _ => paddedByte_of_lt byte (by omega)

/-- The last block as it stands before its encryption: the full blocks before it have not touched it. -/
theorem memByte_padBlock_lastBlock (f : U32 → U32 → U32 × U32) (e : Nat) (m : Memory) (n x : Nat)
    (h : 8 * (n / 8) ≤ x) (h' : x < 8 * (n / 8) + 8) :
    memByte e (padBlock (transformBlocks f e m (n / 8)) (n / 8) (n % 8)) x = paddedByte (memByte e m) n x := by
  by_cases hx : x < n
  · rw [memByte_padBlock_outside _ _ _ _ _ (by omega) (by omega), memByte_transformBlocks_outside _ _ _ _ _ h,
      paddedByte_of_lt _ hx]
  · rw [memByte_padBlock_inside _ _ _ _ _ (by omega) h', paddedByte_of_le _ (by omega)]

/-- Each block of the padded text becomes its encryption (R210). -/
theorem wordOf_encryptBuf (k : KeyFile) (e : Nat) (m : Memory) (n j : Nat) (hj : j ≤ n / 8) :
    (wordOf (memByte e (encryptBuf k e m n)) (8 * j), wordOf (memByte e (encryptBuf k e m n)) (8 * j + 4)) =
      encBlock k (wordOf (paddedByte (memByte e m) n) (8 * j)) (wordOf (paddedByte (memByte e m) n) (8 * j + 4)) := by
  rw [encryptBuf_eq]
  rcases Nat.eq_or_lt_of_le hj with rfl | hlt
  · have hlast := memByte_padBlock_lastBlock (encBlock k) e m n
    rw [wordOf_transformBlock, wordOf_congr fun i hi => hlast (8 * (n / 8) + i) (by omega) (by omega),
      wordOf_congr fun i hi => hlast (8 * (n / 8) + 4 + i) (by omega) (by omega)]
  · rw [wordOf_paddedByte _ (by omega), wordOf_paddedByte _ (by omega),
      ← wordOf_transformBlocks (encBlock k) e m (n / 8) j hlt]
    refine wordPair_congr fun i hi => ?_
    rw [memByte_transformBlock_outside _ _ _ _ _ (by omega),
      memByte_padBlock_outside _ _ _ _ _ (by omega) (by omega)]

theorem exec_enc_noKey {s : State} (hk : s.keyValid = false) (len : U16) :
    exec (.enc len) s = raiseErr .noKey s := by
  simp [exec, execEnc, hk]

theorem exec_enc_outside {len : U16} {s : State} (hk : s.keyValid = true)
    (h : inRange s 0 (encryptLength len.toNat) = false) : exec (.enc len) s = raiseErr .range s := by
  simp [exec, execEnc, hk, h]

/-- The success of `ENC`: the padded text is encrypted, `LEN` is its length, and the rest is kept (R210). -/
theorem exec_enc_frame {len : U16} {s : State} (hk : s.keyValid = true)
    (h : 8 * (len.toNat / 8) + 8 ≤ s.cfg.bufBytes) :
    ∃ t, exec (.enc len) s = .next t ∧ succeeded s t ∧ t.len.toNat = 8 * (len.toNat / 8) + 8 ∧
      (∀ j, j ≤ len.toNat / 8 → (wordOf (bufByte t) (8 * j), wordOf (bufByte t) (8 * j + 4)) =
        encBlock s.k (wordOf (paddedByte (bufByte s) len.toNat) (8 * j))
          (wordOf (paddedByte (bufByte s) len.toNat) (8 * j + 4))) ∧
      memKeptBut 0 (8 * (len.toNat / 8) + 8) s t ∧ regsKept s t ∧ keyKept s t ∧ t.flags = s.flags := by
  have hlt := len.isLt
  have hin : inRange s 0 (encryptLength len.toNat) = true := inRange_eq_true (by rw [encryptLength_eq]; omega)
  obtain ⟨t, ht, hok, hbuf, hlen, hregs, hkey, hflags⟩ := complete_buf_len_frame
    (encryptBuf s.k s.resets s.buf len.toNat) (BitVec.ofNat 32 (encryptLength len.toNat)) s
  refine ⟨t, (execEnc_ok hk hin).trans ht, hok, ?len, fun j hj => ?blocks, fun x hx => ?outside, hregs, hkey, hflags⟩
  case len =>
    rw [hlen, BitVec.toNat_ofNat, encryptLength_eq]
    omega
  case blocks => rw [hbuf, wordOf_encryptBuf _ _ _ _ _ hj, bufByte_eq]
  case outside => rw [hbuf, memByte_encryptBuf_outside _ _ _ _ _ (by rw [encryptLength_eq]; omega), bufByte_eq]

/-- Settles O53: the blocks of the padded text are `EncryptLength(n)` bytes. -/
theorem encEncryptsThePaddedPrefix : Obligations.EncEncryptsThePaddedPrefix := by
  refine fun len s => ⟨fieldsOf_encode_op _, fun hk => failed_of_eq_raiseErr (exec_enc_noKey hk len), fun hk h => ?range,
    fun hk h => exec_enc_frame hk h⟩
  case range =>
    refine failed_of_eq_raiseErr (exec_enc_outside hk (inRange_eq_false ?_))
    rw [encryptLength_eq]
    omega

/-! ### `DEC` (R211) -/

/-- Every block but the last becomes its decryption (R211). -/
theorem wordOf_decryptBuf (k : KeyFile) (e : Nat) (m : Memory) (n j : Nat) (hj : j < n / 8 - 1) :
    (wordOf (memByte e (decryptBuf k e m n)) (8 * j), wordOf (memByte e (decryptBuf k e m n)) (8 * j + 4)) =
      decBlock k (wordOf (memByte e m) (8 * j)) (wordOf (memByte e m) (8 * j + 4)) := by
  rw [← wordOf_transformBlocks (decBlock k) e m (n / 8 - 1) j hj]
  refine wordPair_congr fun i hi => ?_
  rw [decryptBuf_eq, memByte_bufInsertAll_outside _ _ _ _ _ (by omega)]

/-- The bytes of the last block before its padding are those of the scratch block (R211). -/
theorem memByte_decryptBuf_lastBlock (k : KeyFile) (e : Nat) (m : Memory) (n x : Nat)
    (hx : x < 8 - padLen (scratchBlock k e m n)) :
    memByte e (decryptBuf k e m n) (n - 8 + x) =
      byteOfBlock (decBlock k (wordOf (memByte e m) (n - 8)) (wordOf (memByte e m) (n - 4))) x := by
  have hlen : x < ((scratchBlock k e m n).take (8 - padLen (scratchBlock k e m n))).length := by
    rw [List.length_take, scratchBlock_length]
    omega
  rw [decryptBuf_eq, memByte_bufInsertAll_inside _ _ _ _ _ hlen]
  apply Option.some.inj
  rw [← List.getElem?_eq_getElem, List.getElem?_take_of_lt hx, getElem?_scratchBlock _ _ _ _ _ (by omega)]

theorem exec_dec_noKey {s : State} (hk : s.keyValid = false) (len : U16) : exec (.dec len) s = raiseErr .noKey s := by
  simp [exec, execDec_eq, hk]

theorem exec_dec_badLen {len : U16} {s : State} (hk : s.keyValid = true) (h : len.toNat = 0 ∨ len.toNat % 8 ≠ 0) :
    exec (.dec len) s = raiseErr .badLen s := by
  rw [exec, execDec_eq, hk, if_neg (by decide), if_pos h]

section LegalLength

variable {len : U16} {s : State} (hk : s.keyValid = true) (h0 : 0 < len.toNat) (h8 : len.toNat % 8 = 0)
include hk h0 h8

theorem exec_dec_outside (h : inRange s 0 len.toNat = false) : exec (.dec len) s = raiseErr .range s := by
  rw [exec, execDec_eq, hk, if_neg (by decide), if_neg (by omega), h, if_pos (by decide)]

theorem exec_dec_badPad (h : inRange s 0 len.toNat = true)
    (hp : padLen (scratchBlock s.k s.resets s.buf len.toNat) < 1 ∨
      8 < padLen (scratchBlock s.k s.resets s.buf len.toNat)) : exec (.dec len) s = raiseErr .badPad s := by
  rw [exec, execDec_eq, hk, if_neg (by decide), if_neg (by omega), h, if_neg (by decide), if_pos hp]

theorem exec_dec_ok (h : inRange s 0 len.toNat = true)
    (h1 : 1 ≤ padLen (scratchBlock s.k s.resets s.buf len.toNat))
    (h2 : padLen (scratchBlock s.k s.resets s.buf len.toNat) ≤ 8) :
    exec (.dec len) s = complete
      { s with
        buf := decryptBuf s.k s.resets s.buf len.toNat
        len := BitVec.ofNat 32 (len.toNat - 8 + (8 - padLen (scratchBlock s.k s.resets s.buf len.toNat))) } := by
  rw [exec, execDec_eq, hk, if_neg (by decide), if_neg (by omega), h, if_neg (by decide),
    if_neg (by omega)]

end LegalLength

/-- Settles O54: the checks stand in R207's order, and the scratch block gives the pad length and the bytes before the
padding. -/
theorem decDecryptsAndRemovesThePadding : Obligations.DecDecryptsAndRemovesThePadding := by
  refine fun len s => ⟨fieldsOf_encode_op _, ?_⟩
  intro n scratch pad
  have hpad : padLen (scratchBlock s.k s.resets s.buf n) = pad := padLen_scratchBlock s.k s.resets s.buf n
  refine ⟨fun hk => failed_of_eq_raiseErr (exec_dec_noKey hk len),
    fun hk h => failed_of_eq_raiseErr (exec_dec_badLen hk h),
    fun hk h0 h8 h => failed_of_eq_raiseErr (exec_dec_outside hk h0 h8 (inRange_eq_false (by omega))),
    fun hk h0 h8 h hp => failed_of_eq_raiseErr (exec_dec_badPad hk h0 h8 (inRange_eq_true (by omega)) (hpad ▸ hp)),
    fun hk h0 h8 h h1 h2 => ?success⟩
  case success =>
    have hlt : n < 2 ^ 16 := len.isLt
    obtain ⟨t, ht, hok, hbuf, hlen, hregs, hkey, hflags⟩ := complete_buf_len_frame
      (decryptBuf s.k s.resets s.buf n) (BitVec.ofNat 32 (n - 8 + (8 - padLen (scratchBlock s.k s.resets s.buf n)))) s
    have hexec := exec_dec_ok hk h0 h8 (inRange_eq_true (by omega)) (hpad ▸ h1) (hpad ▸ h2)
    refine ⟨t, hexec.trans ht, hok, ?len, fun j hj => ?blocks, fun x hx => ?last, fun x hx => ?outside, hregs, hkey,
      hflags⟩
    case len =>
      rw [hlen, BitVec.toNat_ofNat, hpad]
      omega
    case blocks =>
      rw [hbuf]
      exact wordOf_decryptBuf s.k s.resets s.buf n j hj
    case last =>
      rw [hbuf]
      exact memByte_decryptBuf_lastBlock s.k s.resets s.buf n x (by omega)
    case outside => rw [hbuf, memByte_decryptBuf_outside _ _ _ _ _ h8 h0 (by omega) (by omega), bufByte_eq]

/-! ### The round trip (R215) -/

/-- `DEC` of a buffer whose blocks decrypt to a padded text removes the padding and leaves the text. -/
theorem exec_dec_of_padded {len : U16} {s : State} {f : Nat → U8} {n : Nat} (hk : s.keyValid = true)
    (hlen : len.toNat = 8 * (n / 8) + 8) (hroom : len.toNat ≤ s.cfg.bufBytes)
    (hblocks : ∀ j ≤ n / 8, decBlock s.k (wordOf (bufByte s) (8 * j)) (wordOf (bufByte s) (8 * j + 4)) =
      (wordOf (paddedByte f n) (8 * j), wordOf (paddedByte f n) (8 * j + 4))) :
    ∃ u, exec (.dec len) s = .next u ∧ succeeded s u ∧ u.len.toNat = n ∧ ∀ a < n, bufByte u a = f a := by
  have hscratch : decBlock s.k (wordOf (bufByte s) (len.toNat - 8)) (wordOf (bufByte s) (len.toNat - 4)) =
      (wordOf (paddedByte f n) (8 * (n / 8)), wordOf (paddedByte f n) (8 * (n / 8) + 4)) := by
    rw [show len.toNat - 8 = 8 * (n / 8) by omega, show len.toNat - 4 = 8 * (n / 8) + 4 by omega,
      hblocks _ (Nat.le_refl _)]
  have hpad : (paddedByte f n (8 * (n / 8) + 7)).toNat = 8 - n % 8 := by
    rw [paddedByte_of_le _ (by omega), BitVec.toNat_ofNat]
    omega
  obtain ⟨-, -, -, -, -, hsucc⟩ := decDecryptsAndRemovesThePadding len s
  rw [hscratch, byteOfBlock_wordOf _ _ (by decide), hpad] at hsucc
  obtain ⟨u, hu, hok, hulen, hfull, htail, -⟩ := hsucc hk (by omega) (by omega) hroom (by omega) (by omega)
  refine ⟨u, hu, hok, by omega, fun a ha => ?_⟩
  rw [← paddedByte_of_lt f ha]
  by_cases h : a < 8 * (n / 8)
  · have hwords := (hfull (a / 8) (by omega)).trans (hblocks (a / 8) (by omega))
    have hbyte := eq_of_wordPair_eq hwords (Nat.mod_lt a (by decide))
    rwa [Nat.div_add_mod] at hbyte
  · obtain ⟨x, rfl⟩ := Nat.exists_eq_add_of_le (Nat.le_of_not_lt h)
    have hbyte := htail x (by omega)
    rwa [byteOfBlock_wordOf _ _ (by omega), show len.toNat - 8 = 8 * (n / 8) by omega] at hbyte

/-- Settles O55: what `ENC` left decrypts, block by block, to the padded plaintext. -/
theorem encThenDecRestoresThePlaintext : Obligations.EncThenDecRestoresThePlaintext := by
  intro len s hk hlegal hroom
  have hbuf : s.cfg.bufBytes ≤ 61440 := by
    rw [Config.Params.legal, Bool.and_eq_true, decide_eq_true_eq] at hlegal
    exact hlegal.2
  obtain ⟨t, ht, ⟨-, herr, hcode, -, -, hcfg, -⟩, htlen, hblocks, -, -, ⟨htk, htvalid⟩, -⟩ :=
    exec_enc_frame (len := len) hk (by omega)
  have hn : (BitVec.ofNat 16 t.len.toNat).toNat = 8 * (len.toNat / 8) + 8 := by
    rw [BitVec.toNat_ofNat, htlen]
    omega
  have hdecrypts : ∀ j ≤ len.toNat / 8, decBlock t.k (wordOf (bufByte t) (8 * j)) (wordOf (bufByte t) (8 * j + 4)) =
      (wordOf (paddedByte (bufByte s) len.toNat) (8 * j), wordOf (paddedByte (bufByte s) len.toNat) (8 * j + 4)) := by
    intro j hj
    rw [htk]
    exact decBlock_eq_of_eq_encBlock (hblocks j hj)
  obtain ⟨u, hu, ⟨-, huerr, hucode, -⟩, hulen, hbytes⟩ :=
    exec_dec_of_padded (htvalid.trans hk) hn (by rw [hn, hcfg]; omega) hdecrypts
  exact ⟨t, u, ht, hu, by omega, huerr.trans herr, hucode.trans hcode, hulen, hbytes⟩

end Sys2Proof.Machine
end

section
/-! PROOFS. The family 60_exceptions.md: how a command ends, the engine's step, issue, a latched error, and completion
after polling. A statement about a run is one lemma per turn or group of turns, composed along the list of turns. -/

namespace Sys2Proof.Machine

/-! ### How a command ends (R241, R244) -/

/-- A command's own writes touch neither the latch nor the port, so lowering `BUSY` after them is a success. -/
theorem complete_succeeded {s u : State} (he : u.err = s.err) (hc : u.errCode = s.errCode) (hp : portKept s u) :
    ∃ t, complete u = .next t ∧ succeeded s t :=
  ⟨_, rfl, rfl, he, hc, hp⟩

/-- A command ends in an error, `E_ILLEGAL` only when ill-formed, or in success. -/
theorem exec_ends (i : Instr) (s : State) :
    (∃ e, exec i s = raiseErr e s ∧ (wellFormed i = true → e ≠ .illegal)) ∨
      ∃ t, exec i s = .next t ∧ succeeded s t := by
  have port : portKept s s := ⟨rfl, rfl, rfl, rfl, rfl, rfl⟩
  rcases exec_cases i s with he | ⟨qd, v, he⟩ | he | ⟨qa, qb, -, he⟩ | ⟨qa, -, he⟩ | ⟨qa, -, he⟩ |
    ⟨n, -, l, -, he⟩ | ⟨m, -, -, he⟩ | ⟨m, n, l, -, -, -, he⟩
  case inl => exact .inl he
  all_goals exact .inr (he ▸ complete_succeeded rfl rfl port)

/-- `E_ILLEGAL` is code 1, every other error has a code from 2 (R243). -/
theorem two_le_errBits {e : ErrCode} (h : e ≠ .illegal) : 2 ≤ (errBits e).toNat := by
  cases e with
  | illegal => exact absurd rfl h
  | _ => decide

theorem one_le_errBits (e : ErrCode) : 1 ≤ (errBits e).toNat := by
  cases e <;> decide

/-- Settles O11: a success keeps the latch, and an error's code is that of its name. -/
theorem errorsArePrecise : Obligations.ErrorsArePrecise := by
  intro i s
  rcases exec_ends i s with ⟨e, he, hill⟩ | ⟨t, ht, hbusy, herr, hcode, hport⟩
  · obtain ⟨t, ht, hf⟩ := failed_of_eq_raiseErr he
    have ⟨_, _, hbusy, hport, _⟩ := hf
    refine ⟨t, ht, hbusy, hport, .inr ⟨errBits e, hf, errBits_le e, ?_⟩⟩
    split
    · next hw => exact two_le_errBits (hill hw)
    · exact one_le_errBits e
  · exact ⟨t, ht, hbusy, hport, .inl ⟨herr, hcode⟩⟩

/-! ### The engine's step -/

/-- Settles O10: an idle pass, an error and a host action are next states, and `exec` answers one. -/
theorem everyStepAnswersAState : Obligations.EveryStepAnswersAState := by
  intro s
  obtain ⟨u, -, -, ⟨-, -, h⟩ | ⟨-, -, i, -, h⟩ | ⟨-, -, -, h⟩ | ⟨act, -, h⟩⟩ := step_cases s
  · exact ⟨u, h⟩
  · obtain ⟨t, ht, -⟩ := errorsArePrecise i u
    exact ⟨t, h.trans ht⟩
  · exact ⟨_, h⟩
  · exact ⟨_, h⟩

/-- When the engine is to move, the step is its turn on the state with the turn taken off. -/
theorem step_engine {s : State} {ts : List Turn} (h : engineNext s ts) :
    step s = engineTurn { s with turns := ts } := by
  rcases h with h | ⟨h, rfl⟩
  · simp [step, takeTurn, h]
  · have hs : { s with turns := [] } = s := by rw [← h]
    simp only [step, takeTurn, h, hs]

theorem step_engine_busy {s : State} {ts : List Turn} (h : engineNext s ts) (hb : s.busy = true) :
    step s = completion { s with turns := ts } :=
  (step_engine h).trans (if_pos hb)

theorem step_engine_idle {s : State} {ts : List Turn} (h : engineNext s ts) (hb : s.busy = false) :
    step s = .next { s with turns := ts } :=
  (step_engine h).trans (if_neg (by simp [hb]))

theorem completion_legal {s : State} {i : Instr} (h : decode s.cmdr = .command i) : completion s = exec i s := by
  simp [completion, fetch, h]

/-- Settles O8: the engine's turn is the completion step with `BUSY` 1 and nothing with `BUSY` 0. -/
theorem stepRunsTheDecodedCommand : Obligations.StepRunsTheDecodedCommand := fun _ _ h =>
  ⟨fun _ hb hd => ⟨(step_engine_busy h hb).trans (completion_legal hd), completion_legal hd⟩, step_engine_busy h,
    step_engine_idle h⟩

/-! ### Issue (R240) -/

/-- With `BUSY` 0 a write to `CMD` is an issue attempt. -/
theorem hostWrite_cmd {s : State} {a : HostAddr} (ha : a.toNat * 4 = 0x0000) (hb : s.busy = false) (w : U32) :
    hostWrite a w s = issue w s := by
  rw [hostWrite_of_not_blocked (.inl hb), hostTarget_cmd ha, writeTarget]

/-- Settles O12: the busy rule blocks the write, or it is an issue attempt, which looks at `ERR`. -/
theorem issueDoesOneOfThreeThings : Obligations.IssueDoesOneOfThreeThings := by
  intro s a w ha
  refine ⟨fun hb => ?busy, fun hb he => ?latched, fun hb he => ?accepted⟩
  case busy => exact (busyAccessOnlySetsHz s a hb (by omega)).2 w
  case latched => rw [hostWrite_cmd ha hb, issue, if_pos he]
  case accepted => rw [hostWrite_cmd ha hb, issue, if_neg (by simp [he])]

/-! ### A latched error (R249) -/

/-- While `ERR` is 1 an issued word is dropped, and the engine's turn after it finds nothing in flight. -/
theorem runSteps_issueTurns_of_err {s : State} {w : U32} {ts : List Turn} (hb : s.busy = false) (he : s.err = true)
    (ht : s.turns = issueTurns w ++ ts) (n : Nat) : runSteps (n + 2) s = runSteps n { s with turns := ts } := by
  obtain ⟨-, hdrop, -⟩ := issueDoesOneOfThreeThings { s with turns := .engine :: ts } cmdAddr w rfl
  have hissue : step s = .next { s with turns := .engine :: ts } :=
    (step_host ht).trans (congrArg Host.Outcome.next (hdrop hb he))
  have hengine : step { s with turns := .engine :: ts } = .next { s with turns := ts } :=
    step_engine_idle (.inl rfl) hb
  rw [runSteps_succ hissue, runSteps_succ hengine]

/-- Settles O18, by induction on the list of words. -/
theorem latchedErrorDropsEveryCommand : Obligations.LatchedErrorDropsEveryCommand := by
  intro ws
  induction ws with
  | nil =>
    rintro s ts - - ht
    obtain rfl : s.turns = ts := ht
    rfl
  | cons w ws ih =>
    intro s ts hb he ht
    rw [List.flatMap_cons, List.append_assoc] at ht
    rw [List.length_cons, Nat.mul_succ, runSteps_issueTurns_of_err hb he ht]
    exact ih { s with turns := ws.flatMap issueTurns ++ ts } ts hb he rfl

/-! ### Polling (R241; 70_reset_and_hazards.md R276) -/

/-- `BUSY` is bit 0 of `STATUS` (10_state.md R31). -/
theorem statusWord_getLsbD_zero (s : State) : (statusWord s).getLsbD 0 = s.busy :=
  BitVec.getLsbD_append.trans (by simp)

/-- A poll answers `STATUS` and changes nothing else, busy or not (20_memory.md R73). -/
theorem step_poll {s : State} {ts : List Turn} (ht : s.turns = .host (.read statusAddr) :: ts) :
    step s = .next { s with turns := ts, answers := statusWord s :: s.answers } := by
  rw [step_host ht, hostAct, hostRead_of_not_blocked (.inr rfl), hostTarget_status_iff.2 rfl]
  rfl

/-- Any number of polls answer the same `STATUS`, since a poll changes nothing that `STATUS` shows. -/
theorem runSteps_polls {n : Nat} {s : State} {ts : List Turn}
    (ht : s.turns = List.replicate n (.host (.read statusAddr)) ++ ts) (m : Nat) :
    runSteps (m + n) s =
      runSteps m { s with turns := ts, answers := List.replicate n (statusWord s) ++ s.answers } := by
  induction n generalizing s with
  | zero =>
    obtain rfl : s.turns = ts := ht
    rfl
  | succ n ih =>
    rw [← Nat.add_assoc, runSteps_succ (step_poll ht), ih rfl, List.replicate_succ', List.append_assoc]
    rfl

/-- An accepted issue raises `BUSY` and puts the word into `CMDR` (R240). -/
theorem step_issue {s : State} {w : U32} {ts : List Turn} (hb : s.busy = false) (he : s.err = false)
    (ht : s.turns = .host (.write cmdAddr w) :: ts) :
    step s = .next { s with cmdr := w, busy := true, turns := ts } :=
  (step_host ht).trans (congrArg Host.Outcome.next (hostWrite_cmdAddr_issues (s := { s with turns := ts }) hb he w))

/-- Settles O19: the issue, the polls and the engine's turn, one after another. -/
theorem issuedCommandCompletesAfterAnyPolling : Obligations.IssuedCommandCompletesAfterAnyPolling := by
  intro n w i s ts hb he hd ht
  refine ⟨?run, statusWord_getLsbD_zero _⟩
  case run =>
    rw [show n + 2 = 1 + n + 1 by omega, runSteps_succ (step_issue hb he ht), runSteps_polls rfl, runSteps_one,
      step_engine_busy (.inl rfl) rfl, completion_legal hd]
    rfl

end Sys2Proof.Machine
end

section
/-! PROOFS. The family 70_reset_and_hazards.md: the action `Reset`, taken in any state. -/

namespace Sys2Proof.Machine

/-! ### The action Reset (R270, R271) -/

/-- The registers after the action are those of the reset state, where O1 finds them 0 (10_state.md R36). -/
theorem registersZero_resetAction (s : State) : registersZero (resetAction s) := by
  obtain ⟨hzero, -⟩ := resetStateHasEveryRegisterZero
  exact hzero

/-- No byte is written yet, so each reads as the free byte of the new reset number (R271; log 3). -/
theorem bufByte_resetAction (s : State) (a : Nat) :
    bufByte (resetAction s) a = Config.resetByte (resetAction s).resets a := rfl

/-- Settles O2: a host turn is taken whatever `BUSY` holds, and the action counts itself as one more reset. -/
theorem resetActionInAnyState : Obligations.ResetActionInAnyState := by
  intro s ts hturn
  have hstep : step s = .next (resetAction { s with turns := ts }) := step_host hturn
  exact ⟨_, hstep, registersZero_resetAction _, resetAction_cfg _, resetAction_turns _, resetAction_answers _,
    Nat.succ_ne_self _, bufByte_resetAction _⟩

end Sys2Proof.Machine
end
